-- ==== Sys2Proof/Word.lean ====
section
/-! DEFINITION. The word types of the core: an 8-bit byte (every register and memory cell, R13, R29) and the 9-bit
program counter (R18, D4). -/

namespace Sys2Proof

/-- A register, memory cell, operand or opcode: 8 bits, unsigned (R6, R13, R29). -/
abbrev Byte := BitVec 8

/-- The program counter: 9 bits, values 0 to 511 (R18). -/
abbrev Pc := BitVec 9

end Sys2Proof
end

