-- ==== Sys2Proof/Syntax.lean ====
section
/-! DEFINITION. The instructions as data: the 14 kinds of R46, the four formats of R43, the instruction with its
operand bytes, and the names of the eight registers. What an operand byte means is the machine's business: a register
field is the whole byte (R44), so an instruction can name a register that does not exist. -/

namespace Sys2Proof

/-- The 14 instruction kinds, in the order of R46. -/
inductive Kind where
  | ldi | prn | hlt | mul | push | pop | call | ret | add | cmp | jmp | jne | jeq | addi
  deriving DecidableEq, Repr

/-- Every kind, in the order of R46. -/
def Kind.all : List Kind :=
  [.ldi, .prn, .hlt, .mul, .push, .pop, .call, .ret, .add, .cmp, .jmp, .jne, .jeq, .addi]

/-- The four instruction formats (R43). -/
inductive Format where
  /-- opcode alone -/
  | f0
  /-- opcode, register byte -/
  | f1r
  /-- opcode, register byte, register byte -/
  | f2rr
  /-- opcode, register byte, immediate byte -/
  | f2ri
  deriving DecidableEq, Repr

/-- An instruction: its kind with the operand bytes it fetched, `a` being operand byte `b1` and the second being `b2`
(R42, R43). One constructor per row of spec/opcode_table.json. -/
inductive Instr where
  /-- LDI Ra, imm: LOAD-IMMEDIATE (R78) -/
  | ldi (a imm : Byte)
  /-- PRN Ra: PRINT-REGISTER (R79) -/
  | prn (a : Byte)
  /-- HLT: HALT (R83) -/
  | hlt
  /-- MUL Ra, Rb: MULTIPLY (R74) -/
  | mul (a b : Byte)
  /-- PUSH Ra (R80) -/
  | push (a : Byte)
  /-- POP Ra (R81) -/
  | pop (a : Byte)
  /-- CALL Ra (R84) -/
  | call (a : Byte)
  /-- RET: RETURN (R85) -/
  | ret
  /-- ADD Ra, Rb (R73) -/
  | add (a b : Byte)
  /-- CMP Ra, Rb: COMPARE (R76) -/
  | cmp (a b : Byte)
  /-- JMP Ra: JUMP (R86) -/
  | jmp (a : Byte)
  /-- JNE Ra: JUMP-IF-NOT-EQUAL (R87) -/
  | jne (a : Byte)
  /-- JEQ Ra: JUMP-IF-EQUAL (R88) -/
  | jeq (a : Byte)
  /-- ADDI Ra, imm: ADD-IMMEDIATE (R75) -/
  | addi (a imm : Byte)
  deriving DecidableEq, Repr

/-- The kind of an instruction. -/
def Instr.kind : Instr → Kind
  | .ldi _ _ => .ldi
  | .prn _ => .prn
  | .hlt => .hlt
  | .mul _ _ => .mul
  | .push _ => .push
  | .pop _ => .pop
  | .call _ => .call
  | .ret => .ret
  | .add _ _ => .add
  | .cmp _ _ => .cmp
  | .jmp _ => .jmp
  | .jne _ => .jne
  | .jeq _ => .jeq
  | .addi _ _ => .addi

/-- The operand bytes of an instruction, in address order (R42). -/
def Instr.operands : Instr → List Byte
  | .hlt | .ret => []
  | .prn a | .push a | .pop a | .call a | .jmp a | .jne a | .jeq a => [a]
  | .ldi a b | .mul a b | .add a b | .cmp a b | .addi a b => [a, b]

/-- The operand bytes that stand in a register field, `b1` before `b2` (R43, R61). -/
def Instr.regFields : Instr → List Byte
  | .hlt | .ret => []
  | .ldi a _ | .addi a _ => [a]
  | .prn a | .push a | .pop a | .call a | .jmp a | .jne a | .jeq a => [a]
  | .mul a b | .add a b | .cmp a b => [a, b]

/-- The eight general registers R0 to R7 (R13). -/
inductive Reg where
  | r0 | r1 | r2 | r3 | r4 | r5 | r6 | r7
  deriving DecidableEq, Repr

/-- Every register, in the order of its number. -/
def Reg.all : List Reg := [.r0, .r1, .r2, .r3, .r4, .r5, .r6, .r7]

/-- A register's number as an operand byte (R44). -/
def Reg.byte : Reg → Byte
  | .r0 => 0
  | .r1 => 1
  | .r2 => 2
  | .r3 => 3
  | .r4 => 4
  | .r5 => 5
  | .r6 => 6
  | .r7 => 7

end Sys2Proof
end

