-- ==== Sys2Proof/Config.lean ====
section
/-! DEFINITION. What an implementation fixes (R5). `OPCODE_MAP` is the only open parameter: decoding, fetching and
stepping take it as an argument. The machine has no free value: every 'undefined' of the source is settled by a rule
(93_implementation_defined.md section 1). -/

namespace Sys2Proof

/-- `OPCODE_MAP` (R5, R47): the opcode byte of each instruction kind. -/
abbrev OpcodeMap := Kind → Byte

/-- `OPCODE_MAP` must be injective (R5, R47). -/
def OpcodeMap.Injective (m : OpcodeMap) : Prop := ∀ j k, m j = m k → j = k

/-- `MEM_SIZE`: memory cells, at addresses 0 to 255 (R5, R29). -/
def Config.memSize : Nat := 256

/-- `SP_RESET`: the reset value of the stack pointer (R5, R16). -/
def Config.spReset : Byte := 0xF4

/-- What a memory cell holds at reset, and so what an unlisted cell reads as (R30, R106). -/
def Config.memReset : Byte := 0

end Sys2Proof
end

