-- ==== Sys2Proof/WellFormed.lean ====
section
/-! DEFINITION. Which instructions are well formed: every register field names one of R0 to R7 (R44). An ill-formed
instruction is still decoded (R48) and still has its meaning, which is to raise BAD_REGISTER (R61). -/

namespace Sys2Proof

/-- A register field holds 0 to 7 (R44). -/
def validRegByte (b : Byte) : Bool := b.toNat ≤ 7

/-- Every register field of the instruction names a register (R44, R49). -/
def Instr.wellFormed (i : Instr) : Bool := i.regFields.all validRegByte

end Sys2Proof
end

