-- ==== Sys2Proof/Decode.lean ====
section
/-! DEFINITION. Decoding and encoding (30_encoding.md), both for an arbitrary `OPCODE_MAP`; the default map of R47;
and the reading of a word numbered as spec/opcode_table.json numbers it. The decoder looks at the opcode byte alone to
choose the instruction (R48) and takes the operand bytes its length covers (R51). -/

namespace Sys2Proof

/-- The format of each kind (R46). -/
def Kind.format : Kind → Format
  | .hlt | .ret => .f0
  | .prn | .push | .pop | .call | .jmp | .jne | .jeq => .f1r
  | .mul | .add | .cmp => .f2rr
  | .ldi | .addi => .f2ri

/-- The length of each format in bytes (R43). -/
def Format.length : Format → Nat
  | .f0 => 1
  | .f1r => 2
  | .f2rr | .f2ri => 3

/-- The length of each kind in bytes (R46). -/
def Kind.length (k : Kind) : Nat := k.format.length

/-- The default `OPCODE_MAP` (R47). PRESUMED for the first 13 values (G1, the LS-8's) and the spec's own choice for
ADDI (D1); unsafe, log entry 1. -/
def defaultOpcodeMap : OpcodeMap
  | .ldi => 0x82
  | .prn => 0x47
  | .hlt => 0x01
  | .mul => 0xA2
  | .push => 0x45
  | .pop => 0x46
  | .call => 0x50
  | .ret => 0x11
  | .add => 0xA0
  | .cmp => 0xA7
  | .jmp => 0x54
  | .jne => 0x56
  | .jeq => 0x55
  | .addi => 0xAE

/-- `OPCODE_MAP^-1`: the kind an opcode byte names, or none (R48, R59). -/
def OpcodeMap.kindOf (m : OpcodeMap) (op : Byte) : Option Kind :=
  Kind.all.find? fun k => m k == op

/-- Why a sequence of bytes is no instruction. -/
inductive DecodeError where
  /-- There is no opcode byte. -/
  | noOpcode
  /-- The opcode byte is not in the map (R49). -/
  | unrecognizedOpcode (op : Byte)
  /-- The operand byte at this offset from the opcode is not there (1 for `b1`, 2 for `b2`). -/
  | missingOperand (offset : Nat)
  deriving DecidableEq, Repr

/-- An instruction without operand bytes (format F0). -/
def takeNone (i : Instr) (bs : List Byte) : Except DecodeError (Instr × List Byte) := .ok (i, bs)

/-- An instruction with one operand byte (format F1R). -/
def takeOne (f : Byte → Instr) : List Byte → Except DecodeError (Instr × List Byte)
  | [] => .error (.missingOperand 1)
  | a :: rest => .ok (f a, rest)

/-- An instruction with two operand bytes (formats F2RR and F2RI), missed in address order (R60). -/
def takeTwo (f : Byte → Byte → Instr) : List Byte → Except DecodeError (Instr × List Byte)
  | [] => .error (.missingOperand 1)
  | [_] => .error (.missingOperand 2)
  | a :: b :: rest => .ok (f a b, rest)

/-- The operand bytes of a known kind (R43, R46, R60). -/
def decodeOperands : Kind → List Byte → Except DecodeError (Instr × List Byte)
  | .ldi => takeTwo .ldi
  | .prn => takeOne .prn
  | .hlt => takeNone .hlt
  | .mul => takeTwo .mul
  | .push => takeOne .push
  | .pop => takeOne .pop
  | .call => takeOne .call
  | .ret => takeNone .ret
  | .add => takeTwo .add
  | .cmp => takeTwo .cmp
  | .jmp => takeOne .jmp
  | .jne => takeOne .jne
  | .jeq => takeOne .jeq
  | .addi => takeTwo .addi

/-- Decode the instruction at the head of a byte sequence, and the bytes after it (R42, R48, R51, R52). -/
def decodeWith (m : OpcodeMap) : List Byte → Except DecodeError (Instr × List Byte)
  | [] => .error .noOpcode
  | op :: rest =>
    match m.kindOf op with
    | none => .error (.unrecognizedOpcode op)
    | some k => decodeOperands k rest

/-- Encode an instruction: the opcode byte, then each operand as one byte (R42, R55). -/
def encodeWith (m : OpcodeMap) (i : Instr) : List Byte := m i.kind :: i.operands

/-- Decoding under the default map. -/
def decode (bs : List Byte) : Except DecodeError (Instr × List Byte) := decodeWith defaultOpcodeMap bs

/-- Encoding under the default map. -/
def encode (i : Instr) : List Byte := encodeWith defaultOpcodeMap i

/-- The bytes of an instruction word numbered as the opcode table numbers it: bit 0 is the least significant bit of
the first byte, a later byte's bits count on from it. Every bit above `nbits` is 0, up to the longest instruction, 3
bytes. -/
def tableWordBytes (nbits w : Nat) : List Byte :=
  let v := w % 2 ^ nbits
  [BitVec.ofNat 8 v, BitVec.ofNat 8 (v / 2 ^ 8), BitVec.ofNat 8 (v / 2 ^ 16)]

/-- The instruction the decoder reads from a word numbered as the opcode table numbers it. -/
def decodeTableWord (nbits w : Nat) : Option Instr :=
  match decode (tableWordBytes nbits w) with
  | .ok (i, _) => some i
  | .error _ => none

end Sys2Proof
end

