-- ==== Sys2Proof/Machine/State.lean ====
section
/-! DEFINITION. The whole architectural state of the core (head of 10_state.md, R28), as plain data, and the state after
reset (R106). -/

namespace Sys2Proof.Machine

/-- The register file: eight registers of 8 bits (R13). R7 is the stack pointer by convention (R15). -/
structure Regs where
  r0 : Byte
  r1 : Byte
  r2 : Byte
  r3 : Byte
  r4 : Byte
  r5 : Byte
  r6 : Byte
  r7 : Byte
  deriving DecidableEq, Repr

/-- The flag register: `FL.E`, `FL.G`, `FL.L` (R20). -/
structure Flags where
  e : Bool
  g : Bool
  l : Bool
  deriving DecidableEq, Repr

/-- A fault record `(code, info)` (R22, R90): the constructor is the code, its argument the recorded information.
Addresses are exact numbers (R6); the select's width is a DESIGN CHOICE, safe (log entry 7). -/
inductive FaultRecord where
  /-- code 1: the opcode byte is not in `OPCODE_MAP` (R59) -/
  | unrecognizedOpcode (op : Byte)
  /-- code 2: opcode fetch with pc above 255 (R58) -/
  | pcOutOfRange (pc : Nat)
  /-- code 3: an operand byte of the instruction lies above address 255 (R60) -/
  | operandOutOfRange (addr : Nat)
  /-- code 4: a register field holds 8 to 255 (R61) -/
  | badRegister (operand : Byte)
  /-- code 5: the stack pointer would wrap (R80, R81, R84, R85) -/
  | stackWrap (sp : Byte)
  /-- code 6: the return address of a CALL does not fit a byte (R84) -/
  | returnAddressOutOfRange (addr : Nat)
  /-- code 7: the ALU was invoked with a select it does not support (R72); no handler can do so (R104) -/
  | unsupportedAluOp (select : Byte)
  deriving DecidableEq, Repr

/-- Memory: the cells that differ from the reset contents, as (address, byte) pairs (R29). -/
abbrev Memory := List Host.Cell

/-- The canonical form: addresses strictly rising and below 256, no cell listed at its reset contents. -/
abbrev Memory.wf (m : Memory) : Prop :=
  m.Pairwise (fun c d => c.1 < d.1) ∧ ∀ c ∈ m, c.1 < Config.memSize ∧ c.2 ≠ Config.memReset

/-- The architectural state of the core (head of 10_state.md): nothing else exists (R26, R28). -/
structure State where
  /-- R0 to R7 (R13) -/
  regs : Regs
  /-- the address of the next instruction to fetch; during an instruction, of its own opcode (R18) -/
  pc : Pc
  /-- the condition flags (R20) -/
  flags : Flags
  /-- the running flag (R23) -/
  running : Bool
  /-- the fault status (R22) -/
  fault : Option FaultRecord
  /-- the output channel, oldest byte first (R25) -/
  out : List Byte
  /-- the 256 memory cells (R29) -/
  mem : Memory
  deriving DecidableEq, Repr

/-- Registers at reset: zero but for the stack pointer (R16). -/
def Regs.reset : Regs := ⟨0, 0, 0, 0, 0, 0, 0, Config.spReset⟩

/-- All three flags clear (R21, R106). -/
def Flags.clear : Flags := ⟨false, false, false⟩

/-- The state right after reset, before the loader writes an image (R106). -/
def State.reset : State where
  regs := Regs.reset
  pc := 0
  flags := Flags.clear
  running := true
  fault := none
  out := []
  mem := []

/-- Why no step is taken. A fault of the HARDWARE is not one of these: taking it is a next state, which records it
(R93). -/
inductive Fault where
  /-- Raised by `step` alone, on a machine whose status is HALTED: no step is enabled (R57). Safe: the state never
  changes again (R119). -/
  | halted
  /-- Raised by `step` alone, on a machine whose status is FAULTED: no step is enabled (R57). Safe: the state never
  changes again (R119). -/
  | faulted
  deriving DecidableEq, Repr

/-- Why an instruction has no meaning. -/
inductive Refusal where
  /-- Raised by an arm of `exec` whose instruction has no meaning yet: safe. No arm raises it: all 14 instructions
  have their meaning. -/
  | notModelled (mnemonic : String)
  deriving DecidableEq, Repr

end Sys2Proof.Machine
end

