-- ==== Sys2Proof/Machine/Ops.lean ====
section
/-! DEFINITION. The named operations over registers and memory, the output channel, the program-counter controller,
the stack pointer's two moves, taking a fault, committing an instruction, and fetching one. There is no operation for
returning from a fault: nothing does (R95). -/

namespace Sys2Proof.Machine

/-! ### Registers -/

/-- `x[i]`, the read of a register (R7, R13). -/
def Regs.get (x : Regs) : Reg → Byte
  | .r0 => x.r0
  | .r1 => x.r1
  | .r2 => x.r2
  | .r3 => x.r3
  | .r4 => x.r4
  | .r5 => x.r5
  | .r6 => x.r6
  | .r7 => x.r7

/-- `x[i] <- v`, the write of a register (R7, R13): every register is writable, none is hard-wired. -/
def Regs.set (x : Regs) (r : Reg) (v : Byte) : Regs :=
  match r with
  | .r0 => { x with r0 := v }
  | .r1 => { x with r1 := v }
  | .r2 => { x with r2 := v }
  | .r3 => { x with r3 := v }
  | .r4 => { x with r4 := v }
  | .r5 => { x with r5 := v }
  | .r6 => { x with r6 := v }
  | .r7 => { x with r7 := v }

/-- Read a register of the state. -/
def State.reg (s : State) (r : Reg) : Byte := s.regs.get r

/-- Write a register of the state. -/
def State.setReg (s : State) (r : Reg) (v : Byte) : State := { s with regs := s.regs.set r v }

/-- `SP`, which is `x[7]` (R7, R15). -/
def State.sp (s : State) : Byte := s.reg .r7

/-! ### Memory -/

/-- The byte at an address: the listed one, or the reset contents (R30). -/
def Memory.read : Memory → Nat → Byte
  | [], _ => Config.memReset
  | (b, w) :: m, a => if b = a then w else Memory.read m a

/-- The memory with no cell listed at an address. -/
def Memory.erase (m : Memory) (a : Nat) : Memory := m.filter fun c => c.1 != a

/-- Insert a cell before the first cell of a higher address. -/
def Memory.insert : Memory → Nat → Byte → Memory
  | [], a, v => [(a, v)]
  | (b, w) :: m, a, v => if a < b then (a, v) :: (b, w) :: m else (b, w) :: Memory.insert m a v

/-- Write a byte, keeping the canonical form: a cell that returns to its reset contents is listed no more. -/
def Memory.write (m : Memory) (a : Nat) (v : Byte) : Memory :=
  if v = Config.memReset then m.erase a else Memory.insert (m.erase a) a v

/-- `MemRead(addr, 1)` (R7, R30): an 8-bit address, so always one of the 256 cells. -/
def State.memRead (s : State) (addr : Byte) : Byte := s.mem.read addr.toNat

/-- `MemWrite(addr, 1, v)` (R7, R30). -/
def State.memWrite (s : State) (addr v : Byte) : State := { s with mem := s.mem.write addr.toNat v }

/-- Write bytes to consecutive addresses from `a` up; an address above 255 does not exist and takes nothing. -/
def Memory.writeBytes : Memory → Nat → List Byte → Memory
  | m, _, [] => m
  | m, a, b :: bs => Memory.writeBytes (if a < Config.memSize then m.write a b else m) (a + 1) bs

/-! ### Output channel -/

/-- `Out(v)`: append a byte to the output channel (R7, R25). -/
def State.emit (s : State) (v : Byte) : State := { s with out := s.out ++ [v] }

/-! ### The program-counter controller -/

/-- The four selections of the next pc (R63). -/
inductive PcSelect where
  /-- SEQ: the address after this instruction -/
  | seq
  /-- TARGET: a register value -/
  | target (v : Byte)
  /-- RETADDR: the byte popped from the stack -/
  | retAddr (v : Byte)
  /-- HOLD: unchanged -/
  | hold
  deriving DecidableEq, Repr

/-- The next pc of an instruction of length `len` at `pc` (R63, R64): SEQ is exact in 9 bits. -/
def nextPc (pc : Pc) (len : Nat) : PcSelect → Pc
  | .seq => pc + BitVec.ofNat 9 len
  | .target v => v.setWidth 9
  | .retAddr v => v.setWidth 9
  | .hold => pc

/-- Write the next pc of an instruction of this kind, the working copy's pc being the instruction's own address. -/
def State.advance (s : State) (k : Kind) (sel : PcSelect) : State :=
  { s with pc := nextPc s.pc k.length sel }

/-! ### The stack pointer -/

/-- The decrement of PUSH and CALL, with its check (R80, R84). -/
def State.decSp (s : State) : Except FaultRecord State :=
  if s.sp = 0 then .error (.stackWrap 0) else .ok (s.setReg .r7 (s.sp - 1))

/-- The increment of POP and RET, with its check of the value about to be incremented (R81, R85). -/
def State.incSp (s : State) : Except FaultRecord State :=
  if s.sp = 255 then .error (.stackWrap 255) else .ok (s.setReg .r7 (s.sp + 1))

/-- The return address of a CALL as a memory byte, or the fault that it does not fit (R84, D8). -/
def State.returnAddress (s : State) : Except FaultRecord Byte :=
  let ret := s.pc.toNat + Kind.call.length
  if ret > 255 then .error (.returnAddressOutOfRange ret) else .ok (BitVec.ofNat 8 ret)

/-! ### Taking a fault, and committing an instruction -/

/-- Fault entry (R93), on the state before the instruction: its working copy is gone, the record is latched, running is
cleared, the pc keeps the address of the faulting instruction. -/
def State.raise (s : State) (r : FaultRecord) : State := { s with fault := some r, running := false }

/-- The end of an instruction (R8, R65, R93): a completed working copy becomes the state in one update; one that
raised is discarded and the fault is taken. -/
def State.commit (s : State) (work : Except FaultRecord State) : Host.Outcome State Fault Refusal :=
  match work with
  | .ok t => .next t
  | .error r => .next (s.raise r)

/-! ### Fetching an instruction -/

/-- Up to `n` bytes from address `a`, ending at address 255. -/
def Memory.bytesFrom (m : Memory) (a : Nat) : Nat → List Byte
  | 0 => []
  | n + 1 => if a < Config.memSize then m.read a :: m.bytesFrom (a + 1) n else []

/-- The bytes an instruction at the pc can consist of: the longest instruction has 3 (R42). Reading has no side effect
(R36), so looking at a byte the instruction does not use changes nothing (R66). DEDUCED, safe: log entry 5. -/
def State.fetchWindow (s : State) : List Byte := s.mem.bytesFrom s.pc.toNat 3

/-- Stages 1 to 3 of the dispatcher (R58, R59, R60): the instruction at the pc, or the fault of its fetch. -/
def State.fetch (m : OpcodeMap) (s : State) : Except FaultRecord Instr :=
  match decodeWith m s.fetchWindow with
  | .ok (i, _) => .ok i
  | .error .noOpcode => .error (.pcOutOfRange s.pc.toNat)
  | .error (.unrecognizedOpcode op) => .error (.unrecognizedOpcode op)
  | .error (.missingOperand k) => .error (.operandOutOfRange (s.pc.toNat + k))

end Sys2Proof.Machine
end

