-- ==== Sys2Proof/Machine/Flags.lean ====
section
/-! DEFINITION. The flag computation, of which there is one (R20, R72), and the flag byte a trace shows (R27). -/

namespace Sys2Proof.Machine

/-- The comparison's three flags (R72): unsigned, exactly one of them set. -/
def compareFlags (a b : Byte) : Flags where
  e := a.toNat = b.toNat
  g := a.toNat > b.toNat
  l := a.toNat < b.toNat

/-- Write the flag register, whole: only a compare does (R20). -/
def State.setFlags (s : State) (f : Flags) : State := { s with flags := f }

/-- The flags as one byte, for a trace: bit 0 E, bit 1 G, bit 2 L, the others 0 (R27). PRESUMED (G3), safe: no
instruction observes it (log entry 11). -/
def Flags.toByte (f : Flags) : Byte :=
  BitVec.ofNat 8 (f.e.toNat + 2 * f.g.toNat + 4 * f.l.toNat)

end Sys2Proof.Machine
end

