-- ==== Sys2Proof/Machine/Operands.lean ====
section
/-! DEFINITION. The two operand forms (30_encoding.md section 2): a register field, checked as stage 4 of the
dispatcher checks it (R61), and an immediate, which is the operand byte itself (R45) and needs no operation. -/

namespace Sys2Proof.Machine

/-- The register an operand byte names, if any (R44): the byte is not masked. -/
def regOfByte? (b : Byte) : Option Reg := Reg.all.find? fun r => r.byte == b

/-- The register of a register field, or BAD_REGISTER with the operand byte (R44, R61). Each meaning resolves its
register fields before anything else, `b1` before `b2`, read or not (D3, D13). -/
def regOperand (b : Byte) : Except FaultRecord Reg :=
  match regOfByte? b with
  | some r => .ok r
  | none => .error (.badRegister b)

end Sys2Proof.Machine
end

