-- ==== Sys2Proof/Machine/Alu.lean ====
section
/-! DEFINITION. The ALU (R72) and its four instructions (41_alu.md). -/

namespace Sys2Proof.Machine

/-- The ALU's operation select (R67, R72). -/
inductive AluSelect where
  | add
  | mul
  | addi
  | cmp
  /-- any other select; its width is a DESIGN CHOICE, safe (log entry 7), since no handler uses one (R104) -/
  | other (select : Byte)
  deriving DecidableEq, Repr

/-- What the ALU returns: an 8-bit result or the three flag values (R67). -/
inductive AluResult where
  | value (v : Byte)
  | flags (f : Flags)
  deriving DecidableEq, Repr

/-- The ALU (R72): a pure function; results are kept modulo 256 (D2). -/
def alu (sel : AluSelect) (a b : Byte) : Except FaultRecord AluResult :=
  match sel with
  | .add => .ok (.value (a + b))
  | .mul => .ok (.value (a * b))
  | .addi => .ok (.value (a + b))
  | .cmp => .ok (.flags (compareFlags a b))
  | .other select => .error (.unsupportedAluOp select)

/-- Run the ALU and write what it returns back "into registers or flags" (R67). -/
def State.aluInto (s : State) (sel : AluSelect) (dst : Reg) (a b : Byte) : Except FaultRecord State :=
  match alu sel a b with
  | .ok (.value v) => .ok (s.setReg dst v)
  | .ok (.flags f) => .ok (s.setFlags f)
  | .error r => .error r

/-- ADD Ra, Rb (R73). -/
def execAdd (a b : Byte) (s : State) : Host.Outcome State Fault Refusal :=
  s.commit do
    let ra ← regOperand a
    let rb ← regOperand b
    let t ← s.aluInto .add ra (s.reg ra) (s.reg rb)
    return t.advance .add .seq

/-- MUL Ra, Rb (R74). -/
def execMul (a b : Byte) (s : State) : Host.Outcome State Fault Refusal :=
  s.commit do
    let ra ← regOperand a
    let rb ← regOperand b
    let t ← s.aluInto .mul ra (s.reg ra) (s.reg rb)
    return t.advance .mul .seq

/-- ADDI Ra, imm (R75): the second operand is a literal, never a register index. -/
def execAddi (a imm : Byte) (s : State) : Host.Outcome State Fault Refusal :=
  s.commit do
    let ra ← regOperand a
    let t ← s.aluInto .addi ra (s.reg ra) imm
    return t.advance .addi .seq

/-- CMP Ra, Rb (R76): writes all three flags and no register. -/
def execCmp (a b : Byte) (s : State) : Host.Outcome State Fault Refusal :=
  s.commit do
    let ra ← regOperand a
    let rb ← regOperand b
    let t ← s.aluInto .cmp ra (s.reg ra) (s.reg rb)
    return t.advance .cmp .seq

end Sys2Proof.Machine
end

