-- ==== Sys2Proof/Machine/Control.lean ====
section
/-! DEFINITION. Control transfer (44_control.md): HLT, CALL, RET, JMP, JNE, JEQ. -/

namespace Sys2Proof.Machine

/-- HLT (R83): clear the running flag; the pc is held at the HLT's own address (D6, log entry 9). -/
def execHlt (s : State) : Host.Outcome State Fault Refusal :=
  s.commit (.ok ({ s with running := false }.advance .hlt .hold))

/-- CALL Ra (R84): the checks in the order of the pseudocode, STACK_WRAP before RETURN_ADDRESS_OUT_OF_RANGE (R92); the
target is read after the decrement (D26). -/
def execCall (a : Byte) (s : State) : Host.Outcome State Fault Refusal :=
  s.commit do
    let ra ← regOperand a
    let t ← s.decSp
    let ret ← t.returnAddress
    return (t.memWrite t.sp ret).advance .call (.target (t.reg ra))

/-- RET (R85): jump to the byte on top of the stack, whatever put it there. -/
def execRet (s : State) : Host.Outcome State Fault Refusal :=
  s.commit do
    let t ← s.incSp
    return t.advance .ret (.retAddr (s.memRead s.sp))

/-- JMP Ra (R86). -/
def execJmp (a : Byte) (s : State) : Host.Outcome State Fault Refusal :=
  s.commit do
    let ra ← regOperand a
    return s.advance .jmp (.target (s.reg ra))

/-- JNE Ra (R87): taken when the equal flag is clear; the register field is checked either way (R61). -/
def execJne (a : Byte) (s : State) : Host.Outcome State Fault Refusal :=
  s.commit do
    let ra ← regOperand a
    return s.advance .jne (if s.flags.e then .seq else .target (s.reg ra))

/-- JEQ Ra (R88): taken when the equal flag is set; the register field is checked either way (R61). -/
def execJeq (a : Byte) (s : State) : Host.Outcome State Fault Refusal :=
  s.commit do
    let ra ← regOperand a
    return s.advance .jeq (if s.flags.e then .target (s.reg ra) else .seq)

end Sys2Proof.Machine
end

