-- ==== Sys2Proof/Machine/RegisterIo.lean ====
section
/-! DEFINITION. Register load and output (42_register_io.md): LDI and PRN. -/

namespace Sys2Proof.Machine

/-- LDI Ra, imm (R78): the value is taken as it is. -/
def execLdi (a imm : Byte) (s : State) : Host.Outcome State Fault Refusal :=
  s.commit do
    let ra ← regOperand a
    return (s.setReg ra imm).advance .ldi .seq

/-- PRN Ra (R79): append the register's value to the output channel. -/
def execPrn (a : Byte) (s : State) : Host.Outcome State Fault Refusal :=
  s.commit do
    let ra ← regOperand a
    return (s.emit (s.reg ra)).advance .prn .seq

end Sys2Proof.Machine
end

