-- ==== Sys2Proof/Machine/Stack.lean ====
section
/-! DEFINITION. The stack instructions (43_stack.md): PUSH and POP. The steps run in the written order on a working
copy, so a read of the operand register after a write of SP sees the new SP (R8, D26). -/

namespace Sys2Proof.Machine

/-- PUSH Ra (R80): decrement SP, then store the register, read after the decrement. -/
def execPush (a : Byte) (s : State) : Host.Outcome State Fault Refusal :=
  s.commit do
    let ra ← regOperand a
    let t ← s.decSp
    return (t.memWrite t.sp (t.reg ra)).advance .push .seq

/-- POP Ra (R81): load the register, then increment `x[7]`, which for POP R7 is the loaded byte. -/
def execPop (a : Byte) (s : State) : Host.Outcome State Fault Refusal :=
  s.commit do
    let ra ← regOperand a
    let t ← (s.setReg ra (s.memRead s.sp)).incSp
    return t.advance .pop .seq

end Sys2Proof.Machine
end

