-- ==== Sys2Proof/Machine/Dispatch.lean ====
section
/-! DEFINITION. The handler multiplexer (R62): one arm per instruction. -/

namespace Sys2Proof.Machine

/-- Stages 4 and 5 of the dispatcher for a fetched instruction (R61, R62). -/
def exec (i : Instr) (s : State) : Host.Outcome State Fault Refusal :=
  match i with
  | .ldi a imm => Sys2Proof.Machine.execLdi a imm s
  | .prn a => Sys2Proof.Machine.execPrn a s
  | .hlt => Sys2Proof.Machine.execHlt s
  | .mul a b => Sys2Proof.Machine.execMul a b s
  | .push a => Sys2Proof.Machine.execPush a s
  | .pop a => Sys2Proof.Machine.execPop a s
  | .call a => Sys2Proof.Machine.execCall a s
  | .ret => Sys2Proof.Machine.execRet s
  | .add a b => Sys2Proof.Machine.execAdd a b s
  | .cmp a b => Sys2Proof.Machine.execCmp a b s
  | .jmp a => Sys2Proof.Machine.execJmp a s
  | .jne a => Sys2Proof.Machine.execJne a s
  | .jeq a => Sys2Proof.Machine.execJeq a s
  | .addi a imm => Sys2Proof.Machine.execAddi a imm s

end Sys2Proof.Machine
end

