-- ==== Sys2Proof/Machine/Step.lean ====
section
/-! DEFINITION. One step of the dispatcher (R57, R70), for an arbitrary `OPCODE_MAP` and for the default one. -/

namespace Sys2Proof.Machine

/-- Why a machine that is not running takes no step (R24, R57). -/
def State.stopped (s : State) : Fault :=
  match s.fault with
  | none => .halted
  | some _ => .faulted

/-- One step under an `OPCODE_MAP` (R57, R70): enabled exactly while running; fetch and decode, then the meaning. -/
def stepWith (m : OpcodeMap) (s : State) : Host.Outcome State Fault Refusal :=
  if s.running then
    match s.fetch m with
    | .ok i => exec i s
    | .error r => .next (s.raise r)
  else .fault s.stopped

/-- One step under the default map of R47 (log entry 1). -/
def step (s : State) : Host.Outcome State Fault Refusal := stepWith defaultOpcodeMap s

/-- The state with an instruction, given as the opcode table numbers its bits, stored where `step` fetches its next
one: at the pc. It stands for the loader's placing of a program (R109; log entry 2). -/
def State.withFetchWord (s : State) (nbits w : Nat) : State :=
  { s with mem := s.mem.writeBytes s.pc.toNat (tableWordBytes nbits w) }

end Sys2Proof.Machine
end

