-- ==== Sys2Proof/Machine/HostView.lean ====
section
/-! DEFINITION. What the host sees of the machine, computed from the state: the status (R24), the exit status (R103), a
fault's code, name and information (R90), the trace port (R99) and the text of the output channel (R25, R79). None of it
changes the state, and no instruction reads any of it. -/

namespace Sys2Proof.Machine

/-- The machine status (R24). -/
inductive Status where
  | running
  | halted
  | faulted
  deriving DecidableEq, Repr

/-- The machine status, derived from the running flag and the fault status (R24). A state that is running with a fault
recorded, which no run reaches, counts as RUNNING: its step is enabled (R57). DESIGN CHOICE, safe: log entry 10. -/
def State.status (s : State) : Status :=
  if s.running then .running else
    match s.fault with
    | none => .halted
    | some _ => .faulted

/-- The exit status the host reports, once the run has ended (R103, D23). -/
def State.exitStatus (s : State) : Option Nat :=
  match s.status with
  | .running => none
  | .halted => some 0
  | .faulted => some 1

/-- The 8-bit fault code (R22, R90). -/
def FaultRecord.code : FaultRecord → Byte
  | .unrecognizedOpcode _ => 1
  | .pcOutOfRange _ => 2
  | .operandOutOfRange _ => 3
  | .badRegister _ => 4
  | .stackWrap _ => 5
  | .returnAddressOutOfRange _ => 6
  | .unsupportedAluOp _ => 7

/-- The information recorded with the code (R90). -/
def FaultRecord.info : FaultRecord → Nat
  | .unrecognizedOpcode op => op.toNat
  | .pcOutOfRange pc => pc
  | .operandOutOfRange addr => addr
  | .badRegister b => b.toNat
  | .stackWrap sp => sp.toNat
  | .returnAddressOutOfRange addr => addr
  | .unsupportedAluOp select => select.toNat

/-- The name of the fault, which the host's message states (R90, R103). -/
def FaultRecord.name : FaultRecord → String
  | .unrecognizedOpcode _ => "UNRECOGNIZED_OPCODE"
  | .pcOutOfRange _ => "PC_OUT_OF_RANGE"
  | .operandOutOfRange _ => "OPERAND_OUT_OF_RANGE"
  | .badRegister _ => "BAD_REGISTER"
  | .stackWrap _ => "STACK_WRAP"
  | .returnAddressOutOfRange _ => "RETURN_ADDRESS_OUT_OF_RANGE"
  | .unsupportedAluOp _ => "UNSUPPORTED_ALU_OP"

/-- The code of the fault status: 0 for none (R90). -/
def State.faultCode (s : State) : Byte :=
  match s.fault with
  | none => 0
  | some r => r.code

/-- One byte of the trace port: none above address 255 (R99, D27). -/
def State.traceByte (s : State) (offset : Nat) : Option Byte :=
  let a := s.pc.toNat + offset
  if a < Config.memSize then some (s.mem.read a) else none

/-- The trace port, sampled between steps: the pc and the three bytes from it (R99). Their text form is not modelled
(log entry 14). -/
def State.tracePort (s : State) : Pc × Option Byte × Option Byte × Option Byte :=
  (s.pc, s.traceByte 0, s.traceByte 1, s.traceByte 2)

/-- A byte in decimal, without leading zeros or sign (R79, D17). -/
def decimal (v : Byte) : List Char :=
  let digit (n : Nat) : Char := Char.ofNat (48 + n)
  let n := v.toNat
  if n < 10 then [digit n]
  else if n < 100 then [digit (n / 10), digit (n % 10)]
  else [digit (n / 100), digit (n / 10 % 10), digit (n % 10)]

/-- The text the host prints for the output channel: each byte in decimal, then a newline (R25, R79). -/
def State.printed (s : State) : List Char := s.out.flatMap fun v => decimal v ++ ['\n']

end Sys2Proof.Machine
end

