-- ==== Sys2Proof/Machine/Boot.lean ====
section
/-! DEFINITION. The boot sequence (R109): reset, then the loader writes the image's bytes from address 0 up; and the text
format of the image file (R110, R111, R112). Text is a list of characters. The lexical points the spec leaves open are a
DESIGN CHOICE, safe: log entry 12. -/

namespace Sys2Proof.Machine

/-- The lines of a text: it is cut at every newline. -/
def splitAt (sep : Char) : List Char → List (List Char)
  | [] => [[]]
  | c :: cs =>
    if c = sep then [] :: splitAt sep cs
    else
      match splitAt sep cs with
      | [] => [[c]]
      | l :: ls => (c :: l) :: ls

/-- Strip white space at both ends ("strip", "trim": R110). -/
def trim (l : List Char) : List Char :=
  ((l.dropWhile Char.isWhitespace).reverse.dropWhile Char.isWhitespace).reverse

/-- Cut a line at its first comment sign (R110). -/
def dropComment (l : List Char) : List Char := l.takeWhile fun c => c != '#'

/-- The digits of a numeral in a base of 2, 10 or 16, most significant first, after those worth `acc`. -/
def digitsValue (base : Nat) (acc : Nat) : List Char → Option Nat
  | [] => some acc
  | c :: cs =>
    let n := c.toNat
    let d :=
      if 48 ≤ n ∧ n ≤ 57 then n - 48
      else if 97 ≤ n ∧ n ≤ 102 then n - 87
      else if 65 ≤ n ∧ n ≤ 70 then n - 55
      else base
    if d < base then digitsValue base (base * acc + d) cs else none

/-- The value of a numeral: one digit or more, all of them below the base. -/
def numeral (base : Nat) (l : List Char) : Option Nat :=
  match l with
  | [] => none
  | _ => digitsValue base 0 l

/-- Why an image does not load: no run starts, memory is not written, the exit status is 1 (R103, R111, R112). -/
inductive LoadError where
  /-- the file is missing or unreadable (R111) -/
  | fileNotFound
  /-- a line's remainder is not a base-2 numeral (R112) -/
  | notBinary
  /-- a line's value is above 255 (R112) -/
  | valueTooLarge
  /-- the image has more than 256 bytes (R112) -/
  | imageTooLong
  deriving DecidableEq, Repr

/-- One line of the image file: nothing, or one byte (R110). -/
def parseImageLine (l : List Char) : Except LoadError (Option Byte) :=
  match trim (dropComment (trim l)) with
  | [] => .ok none
  | digits =>
    match numeral 2 digits with
    | none => .error .notBinary
    | some n => if n > 255 then .error .valueTooLarge else .ok (some (BitVec.ofNat 8 n))

/-- The bytes of the image file's lines, in order (R110). -/
def parseImageLines : List (List Char) → Except LoadError (List Byte)
  | [] => .ok []
  | l :: ls => do
    let b ← parseImageLine l
    let bs ← parseImageLines ls
    return b.toList ++ bs

/-- The bytes of an image file (R110). -/
def parseImage (text : List Char) : Except LoadError (List Byte) := parseImageLines (splitAt '\n' text)

/-- The loader: the image's bytes, in order, from address 0 up; other cells keep what they held (R109). -/
def State.loadImage (s : State) (image : List Byte) : Except LoadError State :=
  if image.length > Config.memSize then .error .imageTooLong
  else .ok { s with mem := s.mem.writeBytes 0 image }

/-- The image file the host names: unreadable, or a text (R110, R111). -/
inductive ImageFile where
  | missing
  | text (chars : List Char)
  deriving DecidableEq, Repr

/-- The boot sequence (R109): the state a run starts from, or the load failure. -/
def boot : ImageFile → Except LoadError State
  | .missing => .error .fileNotFound
  | .text chars => do
    let image ← parseImage chars
    State.reset.loadImage image

/-- The exit status of a boot that failed, or of the state a run is in (R103). -/
def bootExitStatus : Except LoadError State → Option Nat
  | .error _ => some 1
  | .ok s => s.exitStatus

end Sys2Proof.Machine
end

