-- ==== Sys2Proof/Machine/Assembler.lean ====
section
/-! DEFINITION. The assembly notation of the spec (R53, R54, R55): a notation for images, no part of the hardware. Its
lexical points that the spec leaves open are a DESIGN CHOICE, safe: log entry 13. -/

namespace Sys2Proof.Machine

/-- The mnemonic of each kind (R46). -/
def mnemonic : Kind → String
  | .ldi => "LDI"
  | .prn => "PRN"
  | .hlt => "HLT"
  | .mul => "MUL"
  | .push => "PUSH"
  | .pop => "POP"
  | .call => "CALL"
  | .ret => "RET"
  | .add => "ADD"
  | .cmp => "CMP"
  | .jmp => "JMP"
  | .jne => "JNE"
  | .jeq => "JEQ"
  | .addi => "ADDI"

/-- The source's name of each kind (R46), accepted as a second spelling of the mnemonic (R54). -/
def sourceName : Kind → String
  | .ldi => "LOAD-IMMEDIATE"
  | .prn => "PRINT-REGISTER"
  | .hlt => "HALT"
  | .mul => "MULTIPLY"
  | .push => "PUSH"
  | .pop => "POP"
  | .call => "CALL"
  | .ret => "RETURN"
  | .add => "ADD"
  | .cmp => "COMPARE"
  | .jmp => "JUMP"
  | .jne => "JUMP-IF-NOT-EQUAL"
  | .jeq => "JUMP-IF-EQUAL"
  | .addi => "ADD-IMMEDIATE"

/-- The kind a word of assembly names (R53, R54). -/
def kindOfName (w : List Char) : Option Kind :=
  Kind.all.find? fun k => (mnemonic k).toList == w || (sourceName k).toList == w

/-- What the address of a label is, once known (R53). -/
abbrev Labels := List (List Char × Nat)

/-- A register operand: `R0` to `R7` (R53). -/
def parseRegister : List Char → Option Byte
  | ['R', c] =>
    match numeral 10 [c] with
    | some n => if n ≤ 7 then some (BitVec.ofNat 8 n) else none
    | none => none
  | _ => none

/-- A numeral in decimal, or with `0x` or `0b` before it (R53). -/
def parseNumber : List Char → Option Nat
  | '0' :: 'x' :: ds => numeral 16 ds
  | '0' :: 'b' :: ds => numeral 2 ds
  | ds => numeral 10 ds

/-- An immediate operand: a number, or a label's address, 0 to 255 (R53). -/
def parseImmediate (labels : Labels) (w : List Char) : Option Byte :=
  match (parseNumber w).or (labels.lookup w) with
  | some n => if n ≤ 255 then some (BitVec.ofNat 8 n) else none
  | none => none

/-- The instruction of a kind with its written operands, in encoding order (R53, R55). -/
def assembleOperands (labels : Labels) (k : Kind) (ws : List (List Char)) : Option Instr :=
  let none0 (i : Instr) : Option Instr := match ws with
    | [] => some i
    | _ => none
  let reg (f : Byte → Instr) : Option Instr := match ws with
    | [a] => (parseRegister a).map f
    | _ => none
  let regReg (f : Byte → Byte → Instr) : Option Instr := match ws with
    | [a, b] => (parseRegister a).bind fun x => (parseRegister b).map (f x)
    | _ => none
  let regImm (f : Byte → Byte → Instr) : Option Instr := match ws with
    | [a, b] => (parseRegister a).bind fun x => (parseImmediate labels b).map (f x)
    | _ => none
  match k with
  | .ldi => regImm .ldi
  | .prn => reg .prn
  | .hlt => none0 .hlt
  | .mul => regReg .mul
  | .push => reg .push
  | .pop => reg .pop
  | .call => reg .call
  | .ret => none0 .ret
  | .add => regReg .add
  | .cmp => regReg .cmp
  | .jmp => reg .jmp
  | .jne => reg .jne
  | .jeq => reg .jeq
  | .addi => regImm .addi

/-- A written instruction: its kind and the words of its operands. -/
structure AsmLine where
  kind : Kind
  operands : List (List Char)
  deriving DecidableEq, Repr

/-- An instruction's text without label or comment: the mnemonic, a space, the operands separated by commas (R53). -/
def parseAsmLine (l : List Char) : Option AsmLine :=
  let word := l.takeWhile fun c => !c.isWhitespace
  let rest := trim (l.drop word.length)
  (kindOfName word).map fun k => ⟨k, if rest = [] then [] else (splitAt ',' rest).map trim⟩

/-- A statement's label, if it has one, and what stands after it (R53). -/
def splitLabel (l : List Char) : Option (List Char) × List Char :=
  let name := l.takeWhile fun c => c != ':'
  if name.length = l.length then (none, l) else (some (trim name), trim (l.drop (name.length + 1)))

/-- The statements of an assembly text: lines, cut at the comment sign and then at every `;` (R53). -/
def asmStatements (text : List Char) : List (List Char) :=
  ((splitAt '\n' text).flatMap fun l => splitAt ';' (dropComment l)).map trim

/-- The first pass: the instructions and the labels' addresses, from address `a` up. -/
def collect : Nat → List (List Char) → Option (List AsmLine × Labels)
  | _, [] => some ([], [])
  | a, st :: rest =>
    let (label, body) := splitLabel st
    let here : Labels := label.toList.map fun name => (name, a)
    if body = [] then (collect a rest).map fun (is, ls) => (is, here ++ ls)
    else (parseAsmLine body).bind fun i =>
      (collect (a + i.kind.length) rest).map fun (is, ls) => (i :: is, here ++ ls)

/-- The second pass: the instructions with every label resolved. -/
def resolve (labels : Labels) : List AsmLine → Option (List Instr)
  | [] => some []
  | i :: is => (assembleOperands labels i.kind i.operands).bind fun x => (resolve labels is).map (x :: ·)

/-- The instructions an assembly text writes (R53, R54). -/
def assembleInstrs (text : List Char) : Option (List Instr) :=
  (collect 0 (asmStatements text)).bind fun (is, labels) => resolve labels is

/-- The image of an assembly text: each line is exactly one instruction, encoded under the map (R55). -/
def assembleWith (m : OpcodeMap) (text : List Char) : Option (List Byte) :=
  (assembleInstrs text).map fun is => is.flatMap (encodeWith m)

end Sys2Proof.Machine
end

