-- ==== Sys2Proof/Safety.lean ====
section
/-! DEFINITION. What statements about the machine are stated in: its invariant, the two normal and abnormal ends of a run,
and the tables of what an instruction may read, write and raise. -/

namespace Sys2Proof.Machine

/-- At most one flag is set (R21). -/
def Flags.atMostOne (f : Flags) : Bool := !(f.e && f.g) && !(f.e && f.l) && !(f.g && f.l)

/-- The invariant of the machine, which rules out states no run reaches: memory is in its canonical form, the pc is at
most 256 (R19), at most one flag is set (R21), and a machine with a fault recorded is not running (R24). -/
structure State.Inv (s : State) : Prop where
  memory : s.mem.wf
  pc : s.pc.toNat ≤ 256
  flags : s.flags.atMostOne = true
  status : s.fault ≠ none → s.running = false

/-- A run has ended (R119). -/
def State.ended (s : State) : Bool := !s.running

/-- A run has ended normally, with a HLT (R119). -/
def State.endedNormally (s : State) : Prop := s.running = false ∧ s.fault = none

/-- The registers an instruction may write, as register bytes (R14, the "writes" column). -/
def regsWritten : Instr → List Byte
  | .ldi a _ | .mul a _ | .add a _ | .addi a _ => [a]
  | .push _ | .call _ | .ret => [Reg.r7.byte]
  | .pop a => [a, Reg.r7.byte]
  | .prn _ | .hlt | .cmp _ _ | .jmp _ | .jne _ | .jeq _ => []

/-- The registers an instruction reads under given flags, as register bytes (R14, the "reads" column). -/
def regsRead (f : Flags) : Instr → List Byte
  | .ldi _ _ | .hlt => []
  | .prn a | .jmp a | .addi a _ => [a]
  | .mul a b | .add a b | .cmp a b => [a, b]
  | .push a | .call a => [Reg.r7.byte, a]
  | .pop _ | .ret => [Reg.r7.byte]
  | .jne a => if f.e then [] else [a]
  | .jeq a => if f.e then [a] else []

/-- Whether a kind can raise a fault of its own meaning with this record (R91): the dispatcher's faults of fetching are
not among them. -/
def mayRaise (k : Kind) : FaultRecord → Bool
  | .badRegister _ => k.format != .f0
  | .stackWrap _ => k == .push || k == .pop || k == .call || k == .ret
  | .returnAddressOutOfRange _ => k == .call
  | .unrecognizedOpcode _ | .pcOutOfRange _ | .operandOutOfRange _ | .unsupportedAluOp _ => false

/-- The first register field of an instruction that names no register (R44, R61): `b1` before `b2`. -/
def firstBadField (i : Instr) : Option Byte := i.regFields.find? fun b => 7 < b.toNat

/-- The value of SP that STACK_WRAP is checked on (R80, R81, R84, R85): SP before the instruction; for POP the value about
to be incremented, which for POP R7 is the popped byte (D26). -/
def State.checkedSp (s : State) : Instr → Byte
  | .pop a => if a = Reg.r7.byte then s.memRead s.sp else s.sp
  | _ => s.sp

/-- The cause R90 names for a fault holds in the state the step started from, and the information recorded is what R90
names for it: the byte at the pc, the pc, the first operand address above 255, the first bad register field of the fetched
instruction, the SP value checked (0 for PUSH and CALL, 255 for POP and RET), the return address. -/
def FaultRecord.asTabulated (m : OpcodeMap) (s : State) : FaultRecord → Prop
  | .unrecognizedOpcode op => s.pc.toNat ≤ 255 ∧ op = s.mem.read s.pc.toNat ∧ ∀ k, m k ≠ op
  | .pcOutOfRange pc => pc = s.pc.toNat ∧ pc = 256
  | .operandOutOfRange addr =>
    addr = 256 ∧ s.pc.toNat ≤ 255 ∧ ∃ k, m.kindOf (s.mem.read s.pc.toNat) = some k ∧ addr < s.pc.toNat + k.length
  | .badRegister b => ∃ i, s.fetch m = .ok i ∧ firstBadField i = some b
  | .stackWrap sp =>
    ∃ i, s.fetch m = .ok i ∧ firstBadField i = none ∧ sp = s.checkedSp i ∧
      (i.kind ∈ [.push, .call] ∧ sp = 0 ∨ i.kind ∈ [.pop, .ret] ∧ sp = 255)
  | .returnAddressOutOfRange addr =>
    ∃ a, s.fetch m = .ok (.call a) ∧ firstBadField (.call a) = none ∧ s.sp ≠ 0 ∧
      addr = s.pc.toNat + 2 ∧ addr = 256
  | .unsupportedAluOp _ => False

/-- The bytes of an instruction stand at the pc, all of them at addresses 0 to 255 (R42, R60). -/
def State.holdsAtPc (s : State) (bytes : List Byte) : Prop :=
  s.pc.toNat + bytes.length ≤ Config.memSize ∧
    ∀ k (h : k < bytes.length), s.mem.read (s.pc.toNat + k) = bytes[k]

/-- An instruction of kind `k` whose opcode byte stands at address `p` or above cannot have all its operand bytes below
address 256, and its step takes OPERAND_OUT_OF_RANGE with address 256, under every `OPCODE_MAP` (R60, R90). -/
def OperandFaultsFrom (k : Kind) (p : Nat) : Prop :=
  ∀ (m : OpcodeMap) (s : State), s.running = true → p ≤ s.pc.toNat → s.pc.toNat ≤ 255 →
    m.kindOf (s.mem.read s.pc.toNat) = some k →
      stepWith m s = .next { s with fault := some (.operandOutOfRange 256), running := false }

/-- The register fields of a format among the operand bytes, `b1` first (R43, R61). -/
def Format.registerBytes (f : Format) (b1 b2 : Byte) : List Byte :=
  match f with
  | .f0 => []
  | .f1r => [b1]
  | .f2rr => [b1, b2]
  | .f2ri => [b1]

/-- The instruction of a kind with the operand bytes it has (R43). -/
def instrOf (k : Kind) (b1 b2 : Byte) : Instr :=
  match k with
  | .ldi => .ldi b1 b2
  | .prn => .prn b1
  | .hlt => .hlt
  | .mul => .mul b1 b2
  | .push => .push b1
  | .pop => .pop b1
  | .call => .call b1
  | .ret => .ret
  | .add => .add b1 b2
  | .cmp => .cmp b1 b2
  | .jmp => .jmp b1
  | .jne => .jne b1
  | .jeq => .jeq b1
  | .addi => .addi b1 b2

/-- The whole step as R70 writes it, stage by stage, without the decoder and without the fetch window: the opcode byte
is fetched and looked up, then each operand byte is checked and fetched, then the register fields, then the handler. -/
def referenceStep (m : OpcodeMap) (s : State) : Host.Outcome State Fault Refusal :=
  let pc := s.pc.toNat
  if s.running = false then .fault s.stopped
  else if 255 < pc then .next (s.raise (.pcOutOfRange pc))
  else
    match m.kindOf (s.mem.read pc) with
    | none => .next (s.raise (.unrecognizedOpcode (s.mem.read pc)))
    | some k =>
      if 2 ≤ k.length ∧ 255 < pc + 1 then .next (s.raise (.operandOutOfRange (pc + 1)))
      else if k.length = 3 ∧ 255 < pc + 2 then .next (s.raise (.operandOutOfRange (pc + 2)))
      else
        let b1 := s.mem.read (pc + 1)
        let b2 := s.mem.read (pc + 2)
        match (Format.registerBytes k.format b1 b2).find? fun b => 7 < b.toNat with
        | some b => .next (s.raise (.badRegister b))
        | none => exec (instrOf k b1 b2) s

/-- The outcome with its next state changed. -/
def mapNext (f : State → State) : Host.Outcome State Fault Refusal → Host.Outcome State Fault Refusal
  | .next s => .next (f s)
  | .fault r => .fault r
  | .refused r => .refused r

end Sys2Proof.Machine
end

