-- ==== Sys2Proof/Certificates/Slice0/Obligations.lean ====
section
/-! DEFINITION. The statements about the machine that the provers settle. A statement quantifies over every `OPCODE_MAP`
or every injective one, as U10 asks, unless it names the default map. "Dn" is a decision of 92_eei_decisions.md, the
spec's own choice where the source is silent. -/

open Sys2Proof Sys2Proof.Machine

/-! ### Encoding and decoding -/

/-- Words written out bit by bit from the binary column of R47 and the formats of R43 decode to the instructions they
stand for, with every operand byte used. The opcode values are the default map's (D1, G1, log entry 1). -/
def Obligations.DecodesWordsOfTheSpec : Prop :=
  decode [0b10000010, 0b00000011, 0b11111111] = .ok (.ldi 3 255, []) ∧
  decode [0b01000111, 0b00000111] = .ok (.prn 7, []) ∧
  decode [0b00000001] = .ok (.hlt, []) ∧
  decode [0b10100010, 0b00000000, 0b00000001] = .ok (.mul 0 1, []) ∧
  decode [0b01000101, 0b00000010] = .ok (.push 2, []) ∧
  decode [0b01000110, 0b00000110] = .ok (.pop 6, []) ∧
  decode [0b01010000, 0b00000001] = .ok (.call 1, []) ∧
  decode [0b00010001] = .ok (.ret, []) ∧
  decode [0b10100000, 0b00000101, 0b00000100] = .ok (.add 5 4, []) ∧
  decode [0b10100111, 0b00000001, 0b00000010] = .ok (.cmp 1 2, []) ∧
  decode [0b01010100, 0b00000010] = .ok (.jmp 2, []) ∧
  decode [0b01010110, 0b00000011] = .ok (.jne 3, []) ∧
  decode [0b01010101, 0b00000100] = .ok (.jeq 4, []) ∧
  decode [0b10101110, 0b00000010, 0b00001001] = .ok (.addi 2 9, [])

/-- Decoding undoes encoding, for every instruction at every operand value, whatever bytes follow it, under every
injective map (R42, R43, R47, R55). -/
def Obligations.DecodeUndoesEncode : Prop :=
  ∀ m : OpcodeMap, m.Injective → ∀ (i : Instr) (rest : List Byte),
    decodeWith m (encodeWith m i ++ rest) = .ok (i, rest)

/-- Encoding undoes decoding: whatever decodes to an instruction is that instruction's encoding followed by the bytes
left over, so each byte sequence has one reading and no bit of it is dropped (R42, R51). -/
def Obligations.EncodeUndoesDecode : Prop :=
  ∀ (m : OpcodeMap) (bytes : List Byte) (i : Instr) (rest : List Byte),
    decodeWith m bytes = .ok (i, rest) → encodeWith m i ++ rest = bytes

/-- Decoding (R48): the opcode byte at the pc alone is looked up in the injective map, the kind found gives the format and
the length, and the operand bytes are taken as they are, so that no operand value changes which instruction is decoded. The
first clause is about the model's fetch window (log entry 5, DEDUCED). That too few bytes are an error is no part of R48: it
rests on the spec's own operand-fetch policy (R60, D5), and naming the offset of the first byte missed is the model's
form of it (log entry 5). -/
def Obligations.DecodeLooksAtOpcodeAlone : Prop :=
  (∀ s : State, s.pc.toNat ≤ 255 → s.fetchWindow.head? = some (s.mem.read s.pc.toNat)) ∧
  ∀ m : OpcodeMap, m.Injective → ∀ (op : Byte) (bytes : List Byte),
    ((∀ k, m k ≠ op) → decodeWith m (op :: bytes) = .error (.unrecognizedOpcode op)) ∧
    (∀ k, m k = op →
      (k.length ≤ bytes.length + 1 →
        ∃ i : Instr, i.kind = k ∧ i.operands = bytes.take (k.length - 1) ∧
          decodeWith m (op :: bytes) = .ok (i, bytes.drop (k.length - 1))) ∧
      (bytes.length + 1 < k.length →
        decodeWith m (op :: bytes) = .error (.missingOperand (bytes.length + 1))))

/-- Illegal encodings (R49): under every injective map 242 byte values are no opcode, under the default map all but the
14 of R47, 0x00 among them; executing one raises UNRECOGNIZED_OPCODE; a register field of 8 to 255 is illegal and raises
BAD_REGISTER. The default map's values, in clauses 2 and 3, are general knowledge and the spec's own choice (log entry 1,
PRESUMED; G1, D1); that a bad register field is a fault, in clause 5, is the spec's own choice (R44, D3). -/
def Obligations.IllegalEncodingsFault : Prop :=
  (∀ m : OpcodeMap, m.Injective →
    ((List.range 256).filter fun n => (m.kindOf (BitVec.ofNat 8 n)).isNone).length = 242) ∧
  (∀ op : Byte, defaultOpcodeMap.kindOf op = none ↔
    op ∉ [0x82, 0x47, 0x01, 0xA2, 0x45, 0x46, 0x50, 0x11, 0xA0, 0xA7, 0x54, 0x56, 0x55, (0xAE : Byte)]) ∧
  defaultOpcodeMap.kindOf 0x00 = none ∧
  (∀ (m : OpcodeMap) (s : State), s.running = true → s.pc.toNat ≤ 255 →
    (∀ k, m k ≠ s.mem.read s.pc.toNat) →
      stepWith m s =
        .next { s with fault := some (.unrecognizedOpcode (s.mem.read s.pc.toNat)), running := false }) ∧
  (∀ (i : Instr) (s : State), (∃ b ∈ i.regFields, 7 < b.toNat) →
    ∃ b ∈ i.regFields, 7 < b.toNat ∧
      exec i s = .next { s with fault := some (.badRegister b), running := false })

/-- The default map's bits (R56): bits 7:6 count the operand bytes, bit 5 marks the four ALU instructions, bit 4 the
five that set the pc. From general knowledge (G2), a fact about the default map only; decoding does not use it. -/
def Obligations.DefaultMapFollowsItsConvention : Prop :=
  ∀ k : Kind,
    ((defaultOpcodeMap k).toNat / 64 + 1 = k.length) ∧
    ((defaultOpcodeMap k).getLsbD 5 = true ↔ k ∈ [.add, .mul, .cmp, .addi]) ∧
    ((defaultOpcodeMap k).getLsbD 4 = true ↔ k ∈ [.call, .ret, .jmp, .jne, .jeq])

/-! ### The dispatcher -/

/-- A step runs the decoded instruction (R70): while running, when the bytes at the pc decode to an instruction, the step
is exactly that instruction's meaning, with nothing added around it; `step` is the step under the default map. -/
def Obligations.StepRunsDecodedInstruction : Prop :=
  (∀ (m : OpcodeMap) (s : State) (i : Instr) (rest : List Byte), s.running = true →
    decodeWith m s.fetchWindow = .ok (i, rest) → stepWith m s = exec i s) ∧
  (∀ s : State, step s = stepWith defaultOpcodeMap s)

/-- An instruction whose encoding stands in memory at the pc is the one that runs, under every injective map (R42, R58
to R62, R70). -/
def Obligations.StepRunsInstructionInMemory : Prop :=
  ∀ m : OpcodeMap, m.Injective → ∀ (i : Instr) (s : State), s.running = true →
    s.holdsAtPc (encodeWith m i) → stepWith m s = exec i s

/-- The machine's step, which decodes a window of bytes, is the step of R70's pseudocode, which fetches and checks stage
by stage in the priority of R92. -/
def Obligations.StepIsReferencePseudocode : Prop :=
  ∀ (m : OpcodeMap) (s : State), stepWith m s = referenceStep m s

/-- An instruction consists only of the bytes its length covers (R51, R60, D5): a memory that agrees on those bytes gives
the same fetch. -/
def Obligations.FetchDependsOnInstructionBytesOnly : Prop :=
  ∀ (m : OpcodeMap) (s t : State) (i : Instr), s.fetch m = .ok i → t.pc = s.pc →
    (∀ k < i.kind.length, t.mem.read (s.pc.toNat + k) = s.mem.read (s.pc.toNat + k)) → t.fetch m = .ok i

/-- A step is enabled exactly when `running` is true (R57): then it answers a next state; otherwise no step is taken,
and a run of any number of steps answers none either. That the stuck machine answers the model's fault `halted` or
`faulted`, in clauses 2 and 3, is the model's form of R57 (log entry 3, DESIGN CHOICE). -/
def Obligations.StepEnabledExactlyWhileRunning : Prop :=
  (∀ (m : OpcodeMap) (s : State), (∃ t, stepWith m s = .next t) ↔ s.running = true) ∧
  (∀ (m : OpcodeMap) (s : State), s.running = false → stepWith m s = .fault s.stopped) ∧
  (∀ (s : State) (n : Nat), s.running = false → Host.Core.run Sys2Proof.core (n + 1) s = .fault s.stopped)

/-- Decode by the handler multiplexer (R59): an opcode byte outside the map faults with UNRECOGNIZED_OPCODE and that byte;
a byte in it selects, by itself alone, the kind and with it the length, and the step is then the meaning of an instruction
of that kind and length (where its bytes fit below address 256). -/
def Obligations.HandlerIsSelectedByOpcodeByte : Prop :=
  ∀ (m : OpcodeMap) (s : State), s.running = true → s.pc.toNat ≤ 255 →
    (m.kindOf (s.mem.read s.pc.toNat) = none →
      stepWith m s =
        .next { s with fault := some (.unrecognizedOpcode (s.mem.read s.pc.toNat)), running := false }) ∧
    (∀ k, m.kindOf (s.mem.read s.pc.toNat) = some k → s.pc.toNat + k.length ≤ 256 →
      ∃ i : Instr, i.kind = k ∧ i.operands.length + 1 = k.length ∧ stepWith m s = exec i s)

/-- Exactly the operand bytes an instruction has are fetched, in address order, and the first one above address 255 faults
with OPERAND_OUT_OF_RANGE and its address (R60; the policy is the spec's own choice, D5): for a kind whose bytes do not
fit, that address is 256. -/
def Obligations.OperandAboveMemoryFaults : Prop :=
  ∀ (m : OpcodeMap) (s : State) (k : Kind), s.running = true → s.pc.toNat ≤ 255 →
    m.kindOf (s.mem.read s.pc.toNat) = some k → 256 < s.pc.toNat + k.length →
      stepWith m s = .next { s with fault := some (.operandOutOfRange 256), running := false }

/-- An opcode fetch above address 255 faults with PC_OUT_OF_RANGE and the pc; the policy is the spec's own choice (R58,
D4). -/
def Obligations.FetchAboveMemoryFaults : Prop :=
  ∀ (m : OpcodeMap) (s : State), s.running = true → 255 < s.pc.toNat →
    stepWith m s = .next { s with fault := some (.pcOutOfRange s.pc.toNat), running := false }

/-- The register fields are checked first, `b1` before `b2`, whether or not the handler reads the register (R61; the
spec's own choice, D3 and D13): the first field above 7 is the fault, whatever the state. -/
def Obligations.FirstBadRegisterFieldFaults : Prop :=
  ∀ (i : Instr) (s : State) (b : Byte), (i.regFields.find? fun x => 7 < x.toNat) = some b →
    exec i s = .next { s with fault := some (.badRegister b), running := false }

/-- The sequential next pc is pc + L, not reduced modulo 256 (R64; the width is the spec's own choice, D4). -/
def Obligations.SequentialPcIsExact : Prop :=
  ∀ (k : Kind) (s : State), s.pc.toNat ≤ 255 →
    ((s.advance k .seq).pc.toNat = s.pc.toNat + k.length) ∧
    (s.pc.toNat + k.length ≤ 256 → (s.advance k .seq).pc.toNat ≤ 256)

/-! ### The ALU instructions -/

/-- The ALU (R72): sums and products modulo 256 (the spec's own choice, D2), the three flags of an unsigned comparison,
and a fault for any other select. -/
def Obligations.AluComputesItsOperations : Prop :=
  ∀ a b : Byte,
    alu .add a b = .ok (.value (BitVec.ofNat 8 ((a.toNat + b.toNat) % 256))) ∧
    alu .mul a b = .ok (.value (BitVec.ofNat 8 ((a.toNat * b.toNat) % 256))) ∧
    alu .addi a b = .ok (.value (BitVec.ofNat 8 ((a.toNat + b.toNat) % 256))) ∧
    alu .cmp a b = .ok (.flags ⟨decide (a = b), decide (b.toNat < a.toNat), decide (a.toNat < b.toNat)⟩) ∧
    ∀ select, alu (.other select) a b = .error (.unsupportedAluOp select)

/-- ADD Ra, Rb (R73): the sum modulo 256 (D2) goes to Ra, no flag is written, the pc advances by 3; OPERAND_OUT_OF_RANGE at
pc 254 and 255 (D5); BAD_REGISTER for `b1`, else for `b2` (D3). -/
def Obligations.AddWritesSumModulo256 : Prop :=
  (∀ (m : OpcodeMap) (a b : Byte), encodeWith m (.add a b) = [m .add, a, b]) ∧
  (∀ (ra rb : Reg) (s : State),
    exec (.add ra.byte rb.byte) s =
      .next { s with
        regs := s.regs.set ra (BitVec.ofNat 8 (((s.regs.get ra).toNat + (s.regs.get rb).toNat) % 256))
        pc := s.pc + 3 }) ∧
  (∀ (a b : Byte) (s : State), 7 < a.toNat →
    exec (.add a b) s = .next { s with fault := some (.badRegister a), running := false }) ∧
  (∀ (ra : Reg) (b : Byte) (s : State), 7 < b.toNat →
    exec (.add ra.byte b) s = .next { s with fault := some (.badRegister b), running := false }) ∧
  OperandFaultsFrom .add 254

/-- MUL Ra, Rb (R74): the product modulo 256 (D2) goes to Ra, no flag is written, the pc advances by 3;
OPERAND_OUT_OF_RANGE at pc 254 and 255 (D5); BAD_REGISTER for `b1`, else for `b2` (D3). -/
def Obligations.MulWritesProductModulo256 : Prop :=
  (∀ (m : OpcodeMap) (a b : Byte), encodeWith m (.mul a b) = [m .mul, a, b]) ∧
  (∀ (ra rb : Reg) (s : State),
    exec (.mul ra.byte rb.byte) s =
      .next { s with
        regs := s.regs.set ra (BitVec.ofNat 8 (((s.regs.get ra).toNat * (s.regs.get rb).toNat) % 256))
        pc := s.pc + 3 }) ∧
  (∀ (a b : Byte) (s : State), 7 < a.toNat →
    exec (.mul a b) s = .next { s with fault := some (.badRegister a), running := false }) ∧
  (∀ (ra : Reg) (b : Byte) (s : State), 7 < b.toNat →
    exec (.mul ra.byte b) s = .next { s with fault := some (.badRegister b), running := false }) ∧
  OperandFaultsFrom .mul 254

/-- ADDI Ra, imm (R75): the sum with the literal, modulo 256 (D2), goes to Ra; the literal is never a register index; no
flag is written, the pc advances by 3; OPERAND_OUT_OF_RANGE at pc 254 and 255 (D5); BAD_REGISTER for `b1` (D3). -/
def Obligations.AddiWritesSumWithLiteral : Prop :=
  (∀ (m : OpcodeMap) (a imm : Byte), encodeWith m (.addi a imm) = [m .addi, a, imm]) ∧
  (∀ (ra : Reg) (imm : Byte) (s : State),
    exec (.addi ra.byte imm) s =
      .next { s with
        regs := s.regs.set ra (BitVec.ofNat 8 (((s.regs.get ra).toNat + imm.toNat) % 256))
        pc := s.pc + 3 }) ∧
  (∀ (a imm : Byte) (s : State), 7 < a.toNat →
    exec (.addi a imm) s = .next { s with fault := some (.badRegister a), running := false }) ∧
  OperandFaultsFrom .addi 254

/-- CMP Ra, Rb (R76): all three flags are written from an unsigned comparison, exactly one becoming 1, whatever they
were; no register is written; the pc advances by 3; OPERAND_OUT_OF_RANGE at pc 254 and 255; BAD_REGISTER for `b1`, else for
`b2`. -/
def Obligations.CmpSetsExactlyOneFlag : Prop :=
  (∀ (m : OpcodeMap) (a b : Byte), encodeWith m (.cmp a b) = [m .cmp, a, b]) ∧
  (∀ (ra rb : Reg) (s : State),
    ∃ f : Flags,
      exec (.cmp ra.byte rb.byte) s = .next { s with flags := f, pc := s.pc + 3 } ∧
      (f.e = true ↔ (s.regs.get ra).toNat = (s.regs.get rb).toNat) ∧
      (f.g = true ↔ (s.regs.get rb).toNat < (s.regs.get ra).toNat) ∧
      (f.l = true ↔ (s.regs.get ra).toNat < (s.regs.get rb).toNat) ∧
      f ∈ [⟨true, false, false⟩, ⟨false, true, false⟩, (⟨false, false, true⟩ : Flags)]) ∧
  (∀ (a b : Byte) (s : State), 7 < a.toNat →
    exec (.cmp a b) s = .next { s with fault := some (.badRegister a), running := false }) ∧
  (∀ (ra : Reg) (b : Byte) (s : State), 7 < b.toNat →
    exec (.cmp ra.byte b) s = .next { s with fault := some (.badRegister b), running := false }) ∧
  OperandFaultsFrom .cmp 254

/-! ### Register load and output -/

/-- LDI Ra, imm (R78): the byte goes to Ra as it is, R7 like any other; no flag is written; the pc advances by 3;
OPERAND_OUT_OF_RANGE at pc 254 and 255; BAD_REGISTER for `b1`; the value is never checked. -/
def Obligations.LdiLoadsImmediate : Prop :=
  (∀ (m : OpcodeMap) (a imm : Byte), encodeWith m (.ldi a imm) = [m .ldi, a, imm]) ∧
  (∀ (ra : Reg) (imm : Byte) (s : State),
    exec (.ldi ra.byte imm) s = .next { s with regs := s.regs.set ra imm, pc := s.pc + 3 }) ∧
  (∀ (a imm : Byte) (s : State), 7 < a.toNat →
    exec (.ldi a imm) s = .next { s with fault := some (.badRegister a), running := false }) ∧
  OperandFaultsFrom .ldi 254

/-- PRN Ra (R79): the register's value is appended to the output channel, nothing else is written, the pc advances by 2;
on a fault nothing is appended; the host prints each byte in decimal and a newline (D17). -/
def Obligations.PrnAppendsRegister : Prop :=
  (∀ (m : OpcodeMap) (a : Byte), encodeWith m (.prn a) = [m .prn, a]) ∧
  (∀ (ra : Reg) (s : State),
    exec (.prn ra.byte) s = .next { s with out := s.out ++ [s.regs.get ra], pc := s.pc + 2 }) ∧
  (∀ (a : Byte) (s : State), 7 < a.toNat →
    exec (.prn a) s = .next { s with fault := some (.badRegister a), running := false }) ∧
  OperandFaultsFrom .prn 255 ∧
  (∀ (s : State) (v : Byte),
    (s.emit v).printed = s.printed ++ (Nat.toDigits 10 v.toNat ++ ['\n']))

/-! ### The stack -/

/-- PUSH Ra (R80): SP is decremented, then the register, read after the decrement (so PUSH R7 stores the decremented SP,
D26), is stored at the new SP; the pc advances by 2; STACK_WRAP with SP 0 (D7); OPERAND_OUT_OF_RANGE at pc 255;
BAD_REGISTER before the stack check. -/
def Obligations.PushStoresAtDecrementedSp : Prop :=
  (∀ (m : OpcodeMap) (a : Byte), encodeWith m (.push a) = [m .push, a]) ∧
  (∀ (ra : Reg) (s : State), s.regs.get .r7 ≠ 0 →
    let sp := BitVec.ofNat 8 ((s.regs.get .r7).toNat - 1)
    let regs := s.regs.set .r7 sp
    exec (.push ra.byte) s =
      .next { s with regs := regs, mem := s.mem.write sp.toNat (regs.get ra), pc := s.pc + 2 }) ∧
  (∀ (ra : Reg) (s : State), s.regs.get .r7 = 0 →
    exec (.push ra.byte) s = .next { s with fault := some (.stackWrap 0), running := false }) ∧
  (∀ (a : Byte) (s : State), 7 < a.toNat →
    exec (.push a) s = .next { s with fault := some (.badRegister a), running := false }) ∧
  OperandFaultsFrom .push 255

/-- POP Ra (R81): the byte at SP goes to Ra, then `x[7]` is incremented, which for POP R7 is the popped byte (D26); the pc
advances by 2 and memory keeps its value; STACK_WRAP when the value about to be incremented is 255 (D7), nothing being
written, not even Ra; OPERAND_OUT_OF_RANGE at pc 255; BAD_REGISTER first. -/
def Obligations.PopLoadsThenIncrementsSp : Prop :=
  (∀ (m : OpcodeMap) (a : Byte), encodeWith m (.pop a) = [m .pop, a]) ∧
  (∀ (ra : Reg) (s : State),
    let regs := s.regs.set ra (s.mem.read (s.regs.get .r7).toNat)
    (regs.get .r7 ≠ 255 →
      exec (.pop ra.byte) s =
        .next { s with
          regs := regs.set .r7 (BitVec.ofNat 8 ((regs.get .r7).toNat + 1))
          pc := s.pc + 2 }) ∧
    (regs.get .r7 = 255 →
      exec (.pop ra.byte) s = .next { s with fault := some (.stackWrap 255), running := false })) ∧
  (∀ (a : Byte) (s : State), 7 < a.toNat →
    exec (.pop a) s = .next { s with fault := some (.badRegister a), running := false }) ∧
  OperandFaultsFrom .pop 255

/-- PUSH then POP (R82, an inference the spec marks as its own): on one register, R7 among them, they restore the register
and SP and leave the value in memory below SP; on two registers, neither of them R7, they copy the first into the
second. -/
def Obligations.PushThenPopRestores : Prop :=
  (∀ (r : Reg) (s : State), s.regs.get .r7 ≠ 0 →
    ∃ t u, exec (.push r.byte) s = .next t ∧ exec (.pop r.byte) t = .next u ∧
      u = { s with mem := t.mem, pc := s.pc + 4 } ∧
      t.mem.read ((s.regs.get .r7).toNat - 1) = t.regs.get r) ∧
  (∀ (r q : Reg) (s : State), r ≠ q → r ≠ .r7 → q ≠ .r7 → s.regs.get .r7 ≠ 0 →
    ∃ t u, exec (.push r.byte) s = .next t ∧ exec (.pop q.byte) t = .next u ∧
      u = { s with regs := s.regs.set q (s.regs.get r), mem := t.mem, pc := s.pc + 4 })

/-! ### Control transfer -/

/-- HLT (R83): `running` becomes false, nothing else changes but the pc, of which this says nothing (the hold of the pc is
the spec's own choice, D6, and U5 asks that no claim read the pc after HLT); from a state with no fault the machine is
HALTED and the exit status 0. -/
def Obligations.HltClearsRunning : Prop :=
  (∀ m : OpcodeMap, encodeWith m .hlt = [m .hlt]) ∧
  (∀ s : State, ∃ t, exec .hlt s = .next t ∧ t = { s with running := false, pc := t.pc } ∧
    (s.fault = none → t.status = .halted ∧ t.exitStatus = some 0))

/-- CALL Ra (R84): SP is decremented, the address of the byte after the CALL is stored at the new SP, and the pc becomes
the register, read after the decrement (D26); STACK_WRAP with SP 0 (D7), else RETURN_ADDRESS_OUT_OF_RANGE from pc 254 on (D8),
either leaving SP and memory unchanged; OPERAND_OUT_OF_RANGE at pc 255; BAD_REGISTER first. -/
def Obligations.CallPushesReturnAddress : Prop :=
  (∀ (m : OpcodeMap) (a : Byte), encodeWith m (.call a) = [m .call, a]) ∧
  (∀ (ra : Reg) (s : State), s.regs.get .r7 ≠ 0 → s.pc.toNat ≤ 253 →
    let sp := BitVec.ofNat 8 ((s.regs.get .r7).toNat - 1)
    let regs := s.regs.set .r7 sp
    exec (.call ra.byte) s =
      .next { s with
        regs := regs
        mem := s.mem.write sp.toNat (BitVec.ofNat 8 (s.pc.toNat + 2))
        pc := (regs.get ra).setWidth 9 }) ∧
  (∀ (ra : Reg) (s : State), s.regs.get .r7 = 0 →
    exec (.call ra.byte) s = .next { s with fault := some (.stackWrap 0), running := false }) ∧
  (∀ (ra : Reg) (s : State), s.regs.get .r7 ≠ 0 → 253 < s.pc.toNat →
    exec (.call ra.byte) s =
      .next { s with fault := some (.returnAddressOutOfRange (s.pc.toNat + 2)), running := false }) ∧
  (∀ (a : Byte) (s : State), 7 < a.toNat →
    exec (.call a) s = .next { s with fault := some (.badRegister a), running := false }) ∧
  OperandFaultsFrom .call 255

/-- RET (R85): the byte at SP becomes the pc, whatever put it there, and SP is incremented; STACK_WRAP with SP 255. It has
no operand, so it is legal at address 255. -/
def Obligations.RetJumpsToPoppedByte : Prop :=
  (∀ m : OpcodeMap, encodeWith m .ret = [m .ret]) ∧
  (∀ s : State, s.regs.get .r7 ≠ 255 →
    exec .ret s =
      .next { s with
        regs := s.regs.set .r7 (BitVec.ofNat 8 ((s.regs.get .r7).toNat + 1))
        pc := (s.mem.read (s.regs.get .r7).toNat).setWidth 9 }) ∧
  (∀ s : State, s.regs.get .r7 = 255 →
    exec .ret s = .next { s with fault := some (.stackWrap 255), running := false }) ∧
  (∀ (m : OpcodeMap) (s : State), m.Injective → s.running = true → s.pc.toNat = 255 →
    s.mem.read 255 = m .ret → stepWith m s = exec .ret s)

/-- JMP Ra (R86): the pc becomes the register, flags neither read nor written; OPERAND_OUT_OF_RANGE at pc 255;
BAD_REGISTER. -/
def Obligations.JmpSetsPc : Prop :=
  (∀ (m : OpcodeMap) (a : Byte), encodeWith m (.jmp a) = [m .jmp, a]) ∧
  (∀ (ra : Reg) (s : State),
    exec (.jmp ra.byte) s = .next { s with pc := (s.regs.get ra).setWidth 9 }) ∧
  (∀ (a : Byte) (s : State), 7 < a.toNat →
    exec (.jmp a) s = .next { s with fault := some (.badRegister a), running := false }) ∧
  OperandFaultsFrom .jmp 255

/-- JNE Ra (R87): with the equal flag clear the pc becomes the register, else it advances by 2; nothing else changes;
OPERAND_OUT_OF_RANGE at pc 255; BAD_REGISTER, taken or not. -/
def Obligations.JneBranchesWhenNotEqual : Prop :=
  (∀ (m : OpcodeMap) (a : Byte), encodeWith m (.jne a) = [m .jne, a]) ∧
  (∀ (ra : Reg) (s : State), s.flags.e = false →
    exec (.jne ra.byte) s = .next { s with pc := (s.regs.get ra).setWidth 9 }) ∧
  (∀ (ra : Reg) (s : State), s.flags.e = true →
    exec (.jne ra.byte) s = .next { s with pc := s.pc + 2 }) ∧
  (∀ (a : Byte) (s : State), 7 < a.toNat →
    exec (.jne a) s = .next { s with fault := some (.badRegister a), running := false }) ∧
  OperandFaultsFrom .jne 255

/-- JEQ Ra (R88): with the equal flag set the pc becomes the register, else it advances by 2; nothing else changes;
OPERAND_OUT_OF_RANGE at pc 255; BAD_REGISTER, taken or not; on the same flags JEQ and JNE take opposite paths. -/
def Obligations.JeqBranchesWhenEqual : Prop :=
  (∀ (m : OpcodeMap) (a : Byte), encodeWith m (.jeq a) = [m .jeq, a]) ∧
  (∀ (ra : Reg) (s : State), s.flags.e = true →
    exec (.jeq ra.byte) s = .next { s with pc := (s.regs.get ra).setWidth 9 }) ∧
  (∀ (ra : Reg) (s : State), s.flags.e = false →
    exec (.jeq ra.byte) s = .next { s with pc := s.pc + 2 }) ∧
  (∀ (a : Byte) (s : State), 7 < a.toNat →
    exec (.jeq a) s = .next { s with fault := some (.badRegister a), running := false }) ∧
  OperandFaultsFrom .jeq 255 ∧
  (∀ (ra : Reg) (s : State) (f : Flags), f.e = !s.flags.e →
    exec (.jne ra.byte) { s with flags := f } =
      mapNext (fun t => { t with flags := f }) (exec (.jeq ra.byte) s))

/-- Call and return (R89, an inference the spec marks as its own): a RET executed in any state that has SP and the stack
cell as the CALL left them sets the pc to the byte after the CALL and SP back to what it was before. -/
def Obligations.CallThenReturnResumes : Prop :=
  ∀ (ra : Reg) (s t u : State), s.pc.toNat ≤ 253 → s.regs.get .r7 ≠ 0 →
    exec (.call ra.byte) s = .next t →
    u.regs.get .r7 = t.regs.get .r7 →
    u.mem.read (t.regs.get .r7).toNat = t.mem.read (t.regs.get .r7).toNat →
      ∃ v, exec .ret u = .next v ∧ v.pc.toNat = s.pc.toNat + 2 ∧ v.regs.get .r7 = s.regs.get .r7

/-! ### Faults -/

/-- Faults are precise (R93, R94; the spec's own choice, D11): a step that records a fault leaves everything else of the
state as it was before the step, but for `running`, which becomes false. -/
def Obligations.NothingOfAFaultingInstructionSurvives : Prop :=
  ∀ (m : OpcodeMap) (s t : State) (r : FaultRecord), s.fault = none → stepWith m s = .next t →
    t.fault = some r → t = { s with fault := some r, running := false }

/-- Which instruction can raise which fault (R91, an inference the spec marks as its own). -/
def Obligations.InstructionsRaiseOnlyTheirFaults : Prop :=
  ∀ (i : Instr) (s t : State) (r : FaultRecord), s.fault = none → exec i s = .next t → t.fault = some r →
    mayRaise i.kind r = true

/-- A step that records a fault does so for the cause R90 names, in the state it started from, and records the information
R90 names for it (`FaultRecord.asTabulated`); UNSUPPORTED_ALU_OP is never raised (R104). The faults but code 1 are the
spec's own choices (D3, D4, D5, D7, D8, D22), as is which of several is recorded (D13) and the operand R7 of POP (D26). -/
def Obligations.FaultInformationIsTabulated : Prop :=
  ∀ (m : OpcodeMap) (s t : State) (r : FaultRecord), s.Inv → s.fault = none → stepWith m s = .next t →
    t.fault = some r → r.asTabulated m s

/-- The loop ends in exactly two ways (R69): a step of a machine with no fault recorded leaves it running, or it was a HLT
and the machine is HALTED, or a stage raised a fault and the machine is FAULTED; and every HLT that is fetched ends it. -/
def Obligations.LoopEndsByHltOrFault : Prop :=
  ∀ (m : OpcodeMap) (s t : State), s.fault = none → stepWith m s = .next t →
    ((t.running = true ∧ t.fault = none ∧ s.fetch m ≠ .ok .hlt) ∨
      (s.fetch m = .ok .hlt ∧ t.status = .halted) ∨
      (∃ r, t = s.raise r ∧ t.status = .faulted))

/-- The running flag (R23): reset sets it, HLT and every fault clear it, and no instruction and no step sets it. -/
def Obligations.OnlyResetSetsRunning : Prop :=
  State.reset.running = true ∧
  (∀ s t : State, exec .hlt s = .next t → t.running = false) ∧
  (∀ (i : Instr) (s t : State) (r : FaultRecord), s.fault = none → exec i s = .next t → t.fault = some r →
    t.running = false) ∧
  (∀ (m : OpcodeMap) (s t : State) (r : FaultRecord), s.fault = none → stepWith m s = .next t →
    t.fault = some r → t.running = false) ∧
  (∀ (i : Instr) (s t : State), exec i s = .next t → s.running = false → t.running = false)

/-! ### Whole-machine rules and frames -/

/-- The flags (R20): CMP writes all three, no other instruction writes any; JEQ and JNE read E alone and nothing else
reads any flag, so that G and L cannot be observed. -/
def Obligations.OnlyCompareWritesFlags : Prop :=
  (∀ (i : Instr) (s t : State), i.kind ≠ .cmp → exec i s = .next t → t.flags = s.flags) ∧
  (∀ (ra rb : Reg) (s : State) (f : Flags),
    exec (.cmp ra.byte rb.byte) { s with flags := f } = exec (.cmp ra.byte rb.byte) s) ∧
  (∀ (i : Instr) (s t : State) (f : Flags), (i.kind = .jne ∨ i.kind = .jeq → f.e = s.flags.e) →
    exec i s = .next t → ∃ f', exec i { s with flags := f } = .next { t with flags := f' })

/-- The output channel is append-only (R25; the spec's own choice, D17): a PRN of a register appends one byte, no other
instruction appends any, and nothing already there is lost. -/
def Obligations.OutputGrowsOnlyByPrn : Prop :=
  ∀ (i : Instr) (s t : State), exec i s = .next t →
    (t.out = s.out ∨ ∃ r : Reg, i = .prn r.byte ∧ t.out = s.out ++ [s.regs.get r])

/-- The registers each instruction writes are those of R14's table (an inference the spec marks as its own): every other
register keeps its value. -/
def Obligations.RegistersWrittenAreTabulated : Prop :=
  ∀ (i : Instr) (s t : State) (q : Reg), exec i s = .next t → q.byte ∉ regsWritten i →
    t.regs.get q = s.regs.get q

/-- The registers each instruction reads are those of R14's table (an inference the spec marks as its own): changing any
other register changes nothing else of the result. A register that is written but not read matters only where the
instruction faults, since the fault keeps it. -/
def Obligations.RegistersReadAreTabulated : Prop :=
  ∀ (i : Instr) (s : State) (q : Reg) (v : Byte), q.byte ∉ regsRead s.flags i →
    (q.byte ∉ regsWritten i → exec i (s.setReg q v) = mapNext (fun t => t.setReg q v) (exec i s)) ∧
    (q.byte ∈ regsWritten i →
      exec i (s.setReg q v) = exec i s ∨
        ∃ r, exec i s = .next (s.raise r) ∧ exec i (s.setReg q v) = .next ((s.setReg q v).raise r))

/-- The frame of LDI, ADD, MUL and ADDI: every register but the destination, every flag, every byte of memory, the output
and (but for a fault) the status are unchanged (R14, R20, R31, R65). -/
def Obligations.RegisterWritingFrame : Prop :=
  ∀ (a b : Byte) (s t : State),
    (exec (.ldi a b) s = .next t ∨ exec (.add a b) s = .next t ∨ exec (.mul a b) s = .next t ∨
      exec (.addi a b) s = .next t) →
    (∀ q : Reg, q.byte ≠ a → t.regs.get q = s.regs.get q) ∧ t.flags = s.flags ∧ t.out = s.out ∧
    (∀ addr, t.mem.read addr = s.mem.read addr) ∧
    ((t.running = s.running ∧ t.fault = s.fault) ∨ ∃ r, t = s.raise r)

/-- The frame of the instructions that write no register and no memory: PRN changes at most the output, CMP at most the
flags, HLT at most `running`, JMP, JNE and JEQ none of these; the status of all but HLT is unchanged but for a fault
(R14, R20, R31, R65). -/
def Obligations.NoRegisterFrame : Prop :=
  ∀ (i : Instr) (s t : State), i.kind ∈ [.prn, .cmp, .hlt, .jmp, .jne, .jeq] → exec i s = .next t →
    (∀ q : Reg, t.regs.get q = s.regs.get q) ∧
    (∀ addr, t.mem.read addr = s.mem.read addr) ∧
    (i.kind ≠ .prn → t.out = s.out) ∧ (i.kind ≠ .cmp → t.flags = s.flags) ∧
    (i.kind = .hlt → t.fault = s.fault) ∧
    (i.kind ≠ .hlt → (t.running = s.running ∧ t.fault = s.fault) ∨ ∃ r, t = s.raise r)

/-- The frame of PUSH and CALL: every register but R7, every flag, the output and (but for a fault) the status are
unchanged, and so is every byte of memory but the one at the decremented SP; where the decrement faults, all of memory
(R14, R31, R65). -/
def Obligations.StackStoringFrame : Prop :=
  ∀ (a : Byte) (s t : State), (exec (.push a) s = .next t ∨ exec (.call a) s = .next t) →
    (∀ q : Reg, q ≠ .r7 → t.regs.get q = s.regs.get q) ∧ t.flags = s.flags ∧ t.out = s.out ∧
    (∀ u, s.decSp = .ok u → ∀ addr, addr ≠ u.sp.toNat → t.mem.read addr = s.mem.read addr) ∧
    (∀ r, s.decSp = .error r → ∀ addr, t.mem.read addr = s.mem.read addr) ∧
    ((t.running = s.running ∧ t.fault = s.fault) ∨ ∃ r, t = s.raise r)

/-- The frame of POP and RET: every register but R7 and POP's destination, every flag, every byte of memory, the output
and (but for a fault) the status are unchanged (R14, R31, R65). -/
def Obligations.StackLoadingFrame : Prop :=
  (∀ (a : Byte) (s t : State), exec (.pop a) s = .next t →
    (∀ q : Reg, q ≠ .r7 → q.byte ≠ a → t.regs.get q = s.regs.get q) ∧ t.flags = s.flags ∧ t.out = s.out ∧
    (∀ addr, t.mem.read addr = s.mem.read addr) ∧
    ((t.running = s.running ∧ t.fault = s.fault) ∨ ∃ r, t = s.raise r)) ∧
  (∀ s t : State, exec .ret s = .next t →
    (∀ q : Reg, q ≠ .r7 → t.regs.get q = s.regs.get q) ∧ t.flags = s.flags ∧ t.out = s.out ∧
    (∀ addr, t.mem.read addr = s.mem.read addr) ∧
    ((t.running = s.running ∧ t.fault = s.fault) ∨ ∃ r, t = s.raise r))

/-! ### Registers, memory, reset, the host's side -/

/-- The register file (R13): eight registers numbered 0 to 7, each readable and writable, none hard-wired; a read after a
write gives the value written, and every other register is as it was. -/
def Obligations.RegistersReadBack : Prop :=
  (∀ b : Byte, (∃ r : Reg, r.byte = b) ↔ b.toNat ≤ 7) ∧
  (∀ (s : State) (r q : Reg) (v : Byte), (s.setReg r v).reg q = if q = r then v else s.reg q) ∧
  (∀ (x : Regs) (y : Regs), (∀ r, x.get r = y.get r) → x = y)

/-- The memory contract (R30): a read gives the byte last written at its address, every other cell is as it was; memory
is zero at reset, and the loader then writes the image from address 0 up. -/
def Obligations.MemoryReadsBack : Prop :=
  (∀ (s : State) (a b v : Byte), (s.memWrite a v).memRead b = if b = a then v else s.memRead b) ∧
  (∀ a : Byte, State.reset.memRead a = 0) ∧
  (∀ (s t : State) (image : List Byte), s.loadImage image = .ok t →
    (∀ k (h : k < image.length), t.mem.read k = image[k]) ∧
    (∀ a, image.length ≤ a → t.mem.read a = s.mem.read a) ∧ t = { s with mem := t.mem })

/-- Memories in canonical form that read alike are equal data; the form is the model's (log entry 4). -/
def Obligations.CanonicalMemoriesAreEqual : Prop :=
  ∀ m m' : Memory, m.wf → m'.wf → (∀ a, m.read a = m'.read a) → m = m'

/-- A byte written by PUSH or CALL is what the next fetch of its address sees (R40, R115; the spec's own choice, D21):
after either, every byte of the next instruction's window is memory's, so the window that starts at the written cell
starts with the byte written. -/
def Obligations.PushedByteIsFetchedNext : Prop :=
  (∀ (r : Reg) (s t : State), s.regs.get .r7 ≠ 0 → exec (.push r.byte) s = .next t →
    t.pc.toNat = (t.regs.get .r7).toNat → t.fetchWindow.head? = some (t.regs.get r)) ∧
  (∀ (r : Reg) (s t : State), s.regs.get .r7 ≠ 0 → s.pc.toNat ≤ 253 → exec (.call r.byte) s = .next t →
    t.pc.toNat = (t.regs.get .r7).toNat →
      t.fetchWindow.head? = some (BitVec.ofNat 8 (s.pc.toNat + 2))) ∧
  (∀ (s : State) (k : Nat), s.fetchWindow[k]? =
    if k < 3 ∧ s.pc.toNat + k < 256 then some (s.mem.read (s.pc.toNat + k)) else none)

/-- Register reset values (R16): R0 to R6 hold 0x00, R7 holds 0xF4. -/
def Obligations.ResetRegisters : Prop :=
  ∀ r : Reg, State.reset.regs.get r = if r = .r7 then 0xF4 else 0x00

/-- The whole reset state (R106), of which the flags, the fault status and the output channel are the spec's own choice
(D9, D11, D17): every register, pc 0, flags clear, running, no fault, no output, every memory cell zero. -/
def Obligations.ResetState : Prop :=
  (∀ r : Reg, State.reset.regs.get r = if r = .r7 then 0xF4 else 0x00) ∧ State.reset.pc = 0 ∧
  State.reset.flags = ⟨false, false, false⟩ ∧ State.reset.running = true ∧ State.reset.fault = none ∧
  State.reset.out = [] ∧ ∀ a, State.reset.mem.read a = 0

/-- The invariant holds at reset. -/
def Obligations.ResetMeetsInvariant : Prop := State.reset.Inv

/-- Every step keeps the invariant, under every `OPCODE_MAP`, from every state that has it: memory stays in its canonical
form, the pc stays at most 256 (R19), at most one flag is set (R21), and a machine with a fault recorded is not running
(R24). -/
def Obligations.StepKeepsInvariant : Prop :=
  ∀ (m : OpcodeMap) (s t : State), s.Inv → stepWith m s = .next t → t.Inv

/-- The status and the exit status (R24, R103; the value 1 is the spec's own choice, D23): in a state that has the
invariant, RUNNING, HALTED and FAULTED are told by the running flag and the fault status. -/
def Obligations.StatusFollowsRunningAndFault : Prop :=
  ∀ s : State, s.Inv →
    (s.status = .running ↔ s.running = true) ∧
    (s.status = .halted ↔ s.running = false ∧ s.fault = none) ∧
    (s.status = .faulted ↔ s.fault ≠ none) ∧
    (s.exitStatus = some 0 ↔ s.status = .halted) ∧ (s.exitStatus = some 1 ↔ s.status = .faulted) ∧
    (s.exitStatus = none ↔ s.status = .running)

/-- The trace port (R99, D27): the pc and the bytes at pc, pc+1 and pc+2, none above address 255. -/
def Obligations.TracePortShowsThreeBytes : Prop :=
  ∀ s : State, ∃ b0 b1 b2, s.tracePort = (s.pc, b0, b1, b2) ∧
    b0 = (if s.pc.toNat ≤ 255 then some (s.mem.read s.pc.toNat) else none) ∧
    b1 = (if s.pc.toNat + 1 ≤ 255 then some (s.mem.read (s.pc.toNat + 1)) else none) ∧
    b2 = (if s.pc.toNat + 2 ≤ 255 then some (s.mem.read (s.pc.toNat + 2)) else none)

/-- Booting a file (R109, R111, R112; the limits are the spec's own choice, D19): a readable file of at most 256 bytes
starts a run from the reset state with the image in memory from address 0 and zero elsewhere; a longer image, a line that
does not parse and a missing file start none, and the exit status is 1. -/
def Obligations.BootLoadsTheImage : Prop :=
  (∀ (chars : List Char) (image : List Byte), parseImage chars = .ok image → image.length ≤ 256 →
    ∃ s, boot (.text chars) = .ok s ∧ s = { State.reset with mem := s.mem } ∧ s.mem.wf ∧
      (∀ k (h : k < image.length), s.mem.read k = image[k]) ∧ (∀ a, image.length ≤ a → s.mem.read a = 0)) ∧
  (∀ (chars : List Char) (image : List Byte), parseImage chars = .ok image → 256 < image.length →
    boot (.text chars) = .error .imageTooLong) ∧
  (∀ (chars : List Char) (e : LoadError), parseImage chars = .error e → boot (.text chars) = .error e) ∧
  boot .missing = .error .fileNotFound ∧
  (∀ (f : ImageFile) (e : LoadError), boot f = .error e → bootExitStatus (boot f) = some 1)

/-- The image file's lines (R110, R112; the limits are the spec's own choice, D19): white space and a comment load
nothing; binary digits worth at most 255, with white space and a comment around them, load their value; more than 255
fails, and so does a remainder that is no base-2 numeral: one that starts and ends with a character that is not white
space and holds any character but 0 and 1. The bytes of a file are those of its lines, in order, and one line that fails
makes the file fail, the first one giving the failure reported (the model's choice, log entry 12, as are white space and
what a numeral is). -/
def Obligations.ImageLinesGiveTheirBytes : Prop :=
  (∀ (w c : List Char), (∀ x ∈ w, x.isWhitespace = true) →
    parseImageLine w = .ok none ∧ parseImageLine (w ++ '#' :: c) = .ok none) ∧
  (∀ (w w' c : List Char) (bits : List Bool), (∀ x ∈ w, x.isWhitespace = true) →
    (∀ x ∈ w', x.isWhitespace = true) → bits ≠ [] →
    let digits := bits.map fun b => if b then '1' else '0'
    let value := bits.foldl (fun n b => 2 * n + b.toNat) 0
    (value ≤ 255 →
      parseImageLine (w ++ digits ++ w') = .ok (some (BitVec.ofNat 8 value)) ∧
      parseImageLine (w ++ digits ++ w' ++ '#' :: c) = .ok (some (BitVec.ofNat 8 value))) ∧
    (255 < value →
      parseImageLine (w ++ digits ++ w') = .error .valueTooLarge ∧
      parseImageLine (w ++ digits ++ w' ++ '#' :: c) = .error .valueTooLarge)) ∧
  (∀ w w' c rem : List Char, (∀ x ∈ w, x.isWhitespace = true) → (∀ x ∈ w', x.isWhitespace = true) →
    '#' ∉ rem → (∀ x ∈ rem.head?, x.isWhitespace = false) → (∀ x ∈ rem.getLast?, x.isWhitespace = false) →
    (∃ x ∈ rem, x ≠ '0' ∧ x ≠ '1') →
      parseImageLine (w ++ rem ++ w') = .error .notBinary ∧
      parseImageLine (w ++ rem ++ w' ++ '#' :: c) = .error .notBinary) ∧
  (∀ (l rest : List Char) (b : Option Byte) (bs : List Byte), '\n' ∉ l → parseImageLine l = .ok b →
    parseImage rest = .ok bs → parseImage (l ++ '\n' :: rest) = .ok (b.toList ++ bs)) ∧
  (∀ (l rest : List Char) (e : LoadError), '\n' ∉ l → parseImageLine l = .error e →
    parseImage (l ++ '\n' :: rest) = .error e) ∧
  (∀ (l rest : List Char) (b : Option Byte) (e : LoadError), '\n' ∉ l → parseImageLine l = .ok b →
    parseImage rest = .error e → parseImage (l ++ '\n' :: rest) = .error e) ∧
  (∀ (l : List Char), '\n' ∉ l → parseImage l = (parseImageLine l).map Option.toList)

/-- What an assembly text writes (R53, R55): every instruction is well formed, and the image, read instruction by
instruction under an injective map, starts with the first instruction written. The notation is the spec's own choice
(D18). -/
def Obligations.AssembledInstructionsAreWellFormed : Prop :=
  ∀ (text : List Char) (is : List Instr), assembleInstrs text = some is →
    (∀ i ∈ is, i.wellFormed = true) ∧
    ∀ m : OpcodeMap, m.Injective →
      ∃ image, assembleWith m text = some image ∧
        ∀ (i : Instr) (rest : List Instr), is = i :: rest →
          decodeWith m image = .ok (i, rest.flatMap (encodeWith m))

/-! ### The numbers of the faults -/

/-- The number, the name and the information of each fault record (R90; the numbers are the spec's own choice, D12), and
the code of the fault status: 0 exactly while no fault is recorded, else the record's; in a state that has the invariant,
not 0 exactly when the machine is FAULTED (R22, R24). -/
def Obligations.FaultCodesAreNumbered : Prop :=
  (∀ (b : Byte) (n : Nat),
    ([.unrecognizedOpcode b, .pcOutOfRange n, .operandOutOfRange n, .badRegister b, .stackWrap b,
      .returnAddressOutOfRange n, .unsupportedAluOp b] : List FaultRecord).map (fun r => (r.code, r.name, r.info)) =
    [(1, "UNRECOGNIZED_OPCODE", b.toNat), (2, "PC_OUT_OF_RANGE", n), (3, "OPERAND_OUT_OF_RANGE", n),
      (4, "BAD_REGISTER", b.toNat), (5, "STACK_WRAP", b.toNat), (6, "RETURN_ADDRESS_OUT_OF_RANGE", n),
      (7, "UNSUPPORTED_ALU_OP", b.toNat)]) ∧
  (∀ s : State, s.faultCode = 0 ↔ s.fault = none) ∧
  (∀ (s : State) (r : FaultRecord), s.fault = some r → s.faultCode = r.code) ∧
  (∀ s : State, s.Inv → (s.faultCode ≠ 0 ↔ s.status = .faulted))
end

