-- ==== Sys2Proof/Laws/Decode.lean ====
section
/-! SUPPORT. `OPCODE_MAP` and its inverse (R47, R48), lengths (R46), and what the decoder's parts can answer. -/

namespace Sys2Proof

@[simp] theorem Kind.mem_all (k : Kind) : k ∈ Kind.all := by cases k <;> decide

/-- What the inverse map names has that opcode byte. -/
theorem OpcodeMap.kindOf_some {m : OpcodeMap} {op : Byte} {k : Kind} (h : m.kindOf op = some k) : m k = op := by
  simpa using List.find?_some h

/-- The inverse map names nothing exactly for a byte outside the map's image (R49). -/
theorem OpcodeMap.kindOf_none {m : OpcodeMap} {op : Byte} : m.kindOf op = none ↔ ∀ k, m k ≠ op := by
  simp [OpcodeMap.kindOf]

/-- Under an injective map the inverse map undoes the map (R47, R48). -/
theorem OpcodeMap.kindOf_apply {m : OpcodeMap} (hm : m.Injective) (k : Kind) : m.kindOf (m k) = some k := by
  cases h : m.kindOf (m k) with
  | none => exact absurd rfl (OpcodeMap.kindOf_none.mp h k)
  | some j => rw [hm j k (OpcodeMap.kindOf_some h)]

/-- The default map is injective (R47). -/
theorem defaultOpcodeMap_injective : defaultOpcodeMap.Injective := by
  intro j k
  cases j <;> cases k <;> decide

/-- An instruction is 1, 2 or 3 bytes long (R42). -/
theorem Kind.length_cases (k : Kind) : k.length = 1 ∨ k.length = 2 ∨ k.length = 3 := by
  cases k <;> decide

@[simp] theorem takeNone_ok (i : Instr) (bs : List Byte) : takeNone i bs = .ok (i, bs) := rfl

@[simp] theorem takeOne_cons (f : Byte → Instr) (a : Byte) (bs : List Byte) : takeOne f (a :: bs) = .ok (f a, bs) :=
  rfl

@[simp] theorem takeTwo_cons (f : Byte → Byte → Instr) (a b : Byte) (bs : List Byte) :
    takeTwo f (a :: b :: bs) = .ok (f a b, bs) := rfl

/-- Everything the reader of one operand byte can answer. -/
theorem takeOne_cases (f : Byte → Instr) (bs : List Byte) :
    (bs = [] ∧ takeOne f bs = .error (.missingOperand 1)) ∨
      (∃ a rest, bs = a :: rest ∧ takeOne f bs = .ok (f a, rest)) := by
  cases bs with
  | nil => exact .inl ⟨rfl, rfl⟩
  | cons a rest => exact .inr ⟨a, rest, rfl, rfl⟩

/-- Everything the reader of two operand bytes can answer. -/
theorem takeTwo_cases (f : Byte → Byte → Instr) (bs : List Byte) :
    (bs = [] ∧ takeTwo f bs = .error (.missingOperand 1)) ∨
      (∃ a, bs = [a] ∧ takeTwo f bs = .error (.missingOperand 2)) ∨
        (∃ a b rest, bs = a :: b :: rest ∧ takeTwo f bs = .ok (f a b, rest)) := by
  match bs with
  | [] => exact .inl ⟨rfl, rfl⟩
  | [a] => exact .inr (.inl ⟨a, rfl, rfl⟩)
  | a :: b :: rest => exact .inr (.inr ⟨a, b, rest, rfl, rfl⟩)

/-- What a successful reading of a kind's operands gives: an instruction of that kind with exactly the bytes read. -/
theorem decodeOperands_ok {k : Kind} {bs rest : List Byte} {i : Instr}
    (h : decodeOperands k bs = .ok (i, rest)) : i.kind = k ∧ bs = i.operands ++ rest := by
  cases k <;> (try cases bs) <;> (try (rename_i b bs; cases bs)) <;>
    simp [decodeOperands, takeNone, takeOne, takeTwo] at h <;>
    obtain ⟨rfl, rfl⟩ := h <;> simp [Instr.kind, Instr.operands]

/-- Reading the operands of an instruction's own bytes gives the instruction. -/
theorem decodeOperands_operands (i : Instr) (rest : List Byte) :
    decodeOperands i.kind (i.operands ++ rest) = .ok (i, rest) := by
  cases i <;> rfl

/-- A kind's operands cannot be read exactly when a byte is missing, and the missing byte is the first one not there. -/
theorem decodeOperands_missing {k : Kind} {bs : List Byte} (h : bs.length + 1 < k.length) :
    decodeOperands k bs = .error (.missingOperand (bs.length + 1)) := by
  cases k <;> (try cases bs) <;> (try (rename_i b bs; cases bs)) <;>
    simp_all [decodeOperands, takeOne, takeTwo, Kind.length, Kind.format, Format.length] <;> omega

/-- An instruction of a kind has that kind's length less one operand bytes (R42, R46). -/
theorem Instr.operands_length (i : Instr) : i.operands.length + 1 = i.kind.length := by cases i <;> rfl

/-- An encoded instruction has its kind's length (R46). -/
theorem encodeWith_length (m : OpcodeMap) (i : Instr) : (encodeWith m i).length = i.kind.length := by
  simp [encodeWith, Instr.operands_length]

end Sys2Proof
end

