-- ==== Sys2Proof/Laws/Registers.lean ====
section
/-! SUPPORT. The register file: a read after a write (R13), and register operands (R44). -/

namespace Sys2Proof.Machine

theorem Regs.get_set (x : Regs) (r q : Reg) (v : Byte) :
    (x.set r v).get q = if q = r then v else x.get q := by
  cases r <;> cases q <;> rfl

@[simp] theorem Regs.get_set_self (x : Regs) (r : Reg) (v : Byte) : (x.set r v).get r = v := by
  simp [Regs.get_set]

theorem Regs.get_set_ne (x : Regs) {r q : Reg} (v : Byte) (h : q ≠ r) : (x.set r v).get q = x.get q := by
  simp [Regs.get_set, h]

@[simp] theorem Regs.set_set (x : Regs) (r : Reg) (v w : Byte) : (x.set r v).set r w = x.set r w := by
  cases r <;> rfl

theorem Regs.set_comm (x : Regs) {r q : Reg} (v w : Byte) (h : q ≠ r) :
    (x.set r v).set q w = (x.set q w).set r v := by
  cases r <;> cases q <;> first | rfl | exact absurd rfl h

@[simp] theorem Regs.set_get (x : Regs) (r : Reg) : x.set r (x.get r) = x := by
  cases r <;> rfl

/-- Two register files that read alike are equal. -/
theorem Regs.ext_get {x y : Regs} (h : ∀ r, x.get r = y.get r) : x = y := by
  cases x; cases y
  have h0 := h .r0; have h1 := h .r1; have h2 := h .r2; have h3 := h .r3
  have h4 := h .r4; have h5 := h .r5; have h6 := h .r6; have h7 := h .r7
  simp_all [Regs.get]

theorem State.reg_def (s : State) (r : Reg) : s.reg r = s.regs.get r := rfl

theorem State.sp_def (s : State) : s.sp = s.reg .r7 := rfl

theorem State.reg_setReg (s : State) (r q : Reg) (v : Byte) :
    (s.setReg r v).reg q = if q = r then v else s.reg q := Regs.get_set _ _ _ _

@[simp] theorem State.reg_memWrite (s : State) (a v : Byte) (r : Reg) : (s.memWrite a v).reg r = s.reg r := rfl

@[simp] theorem State.reg_emit (s : State) (v : Byte) (r : Reg) : (s.emit v).reg r = s.reg r := rfl

@[simp] theorem State.reg_advance (s : State) (k : Kind) (sel : PcSelect) (r : Reg) :
    (s.advance k sel).reg r = s.reg r := rfl

@[simp] theorem State.reg_setFlags (s : State) (f : Flags) (r : Reg) : (s.setFlags f).reg r = s.reg r := rfl

@[simp] theorem State.reg_raise (s : State) (e : FaultRecord) (r : Reg) : (s.raise e).reg r = s.reg r := rfl

/-- A register's number is at most 7 (R44). -/
theorem reg_byte_le (r : Reg) : r.byte.toNat ≤ 7 := by cases r <;> decide

/-- Two registers with one number are one register. -/
theorem reg_byte_inj {r q : Reg} : r.byte = q.byte ↔ r = q := by
  cases r <;> cases q <;> decide

/-- Every byte 0 to 7 is the number of a register (R44). -/
theorem exists_reg_of_le (b : Byte) (h : b.toNat ≤ 7) : ∃ r : Reg, r.byte = b := by
  have hb : b = BitVec.ofNat 8 b.toNat := by simp
  generalize b.toNat = n at h hb
  subst hb
  interval_cases n
  exacts [⟨.r0, rfl⟩, ⟨.r1, rfl⟩, ⟨.r2, rfl⟩, ⟨.r3, rfl⟩, ⟨.r4, rfl⟩, ⟨.r5, rfl⟩, ⟨.r6, rfl⟩, ⟨.r7, rfl⟩]

@[simp] theorem regOfByte_byte (r : Reg) : regOfByte? r.byte = some r := by cases r <;> decide

theorem byte_of_regOfByte {b : Byte} {r : Reg} (h : regOfByte? b = some r) : r.byte = b := by
  simpa using List.find?_some h

theorem regOfByte_eq_none {b : Byte} : regOfByte? b = none ↔ 7 < b.toNat := by
  constructor
  · intro h
    by_contra hb
    obtain ⟨r, rfl⟩ := exists_reg_of_le b (by omega)
    simp at h
  · intro h
    cases hr : regOfByte? b with
    | none => rfl
    | some r =>
      have := byte_of_regOfByte hr
      have := reg_byte_le r
      subst b; omega

/-- The operand operation answers the register a valid field names (R44). -/
@[simp] theorem regOperand_byte (r : Reg) : regOperand r.byte = .ok r := by simp [regOperand]

/-- The operand operation faults on a field that names no register (R44, R61). -/
theorem regOperand_bad {b : Byte} (h : 7 < b.toNat) : regOperand b = .error (.badRegister b) := by
  simp [regOperand, regOfByte_eq_none.mpr h]

/-- Everything the operand operation can do. -/
theorem regOperand_cases (b : Byte) :
    (∃ r : Reg, r.byte = b ∧ regOperand b = .ok r) ∨
      (7 < b.toNat ∧ regOperand b = .error (.badRegister b)) := by
  by_cases h : 7 < b.toNat
  · exact .inr ⟨h, regOperand_bad h⟩
  · obtain ⟨r, rfl⟩ := exists_reg_of_le b (by omega)
    exact .inl ⟨r, rfl, regOperand_byte r⟩

end Sys2Proof.Machine
end

