-- ==== Sys2Proof/Laws/Ops.lean ====
section
/-! SUPPORT. One lemma for each shared operation of the machine that says everything it can do: committing, the two
moves of the stack pointer, the return address, the ALU's writing back, the pc selections, and fetching. -/

namespace Sys2Proof.Machine

/-! ### Running a working copy -/

@[simp] theorem except_bind_ok {ε α β : Type} (a : α) (f : α → Except ε β) : (Except.ok a >>= f) = f a := rfl

@[simp] theorem except_bind_error {ε α β : Type} (e : ε) (f : α → Except ε β) :
    ((Except.error e : Except ε α) >>= f) = Except.error e := rfl

@[simp] theorem except_pure {ε α : Type} (a : α) : (pure a : Except ε α) = Except.ok a := rfl

@[simp] theorem State.commit_ok (s t : State) : s.commit (.ok t) = .next t := rfl

@[simp] theorem State.commit_error (s : State) (r : FaultRecord) : s.commit (.error r) = .next (s.raise r) := rfl

/-- Committing always answers a next state: the working copy's, or the state with the fault taken (R65, R93). -/
theorem State.commit_eq_next {s u : State} {work : Except FaultRecord State} (h : s.commit work = .next u) :
    work = .ok u ∨ ∃ r, work = .error r ∧ u = s.raise r := by
  cases work with
  | ok t => left; simpa using h
  | error r => right; exact ⟨r, rfl, by simpa using h.symm⟩

/-! ### The stack pointer -/

/-- Everything the decrement can do (R80, R84). -/
theorem State.decSp_cases (s : State) :
    (s.sp = 0 ∧ s.decSp = .error (.stackWrap 0)) ∨ (s.sp ≠ 0 ∧ s.decSp = .ok (s.setReg .r7 (s.sp - 1))) := by
  unfold State.decSp
  by_cases h : s.sp = 0
  · exact .inl ⟨h, if_pos h⟩
  · exact .inr ⟨h, if_neg h⟩

/-- Everything the increment can do (R81, R85). -/
theorem State.incSp_cases (s : State) :
    (s.sp = 255 ∧ s.incSp = .error (.stackWrap 255)) ∨
      (s.sp ≠ 255 ∧ s.incSp = .ok (s.setReg .r7 (s.sp + 1))) := by
  unfold State.incSp
  by_cases h : s.sp = 255
  · exact .inl ⟨h, if_pos h⟩
  · exact .inr ⟨h, if_neg h⟩

/-- Everything the forming of a return address can do (R84). -/
theorem State.returnAddress_cases (s : State) :
    (253 < s.pc.toNat ∧ s.returnAddress = .error (.returnAddressOutOfRange (s.pc.toNat + 2))) ∨
      (s.pc.toNat ≤ 253 ∧ s.returnAddress = .ok (BitVec.ofNat 8 (s.pc.toNat + 2))) := by
  have hl : Kind.call.length = 2 := rfl
  unfold State.returnAddress
  by_cases h : 253 < s.pc.toNat
  · exact .inl ⟨h, by simp [hl]; omega⟩
  · exact .inr ⟨by omega, by simp [hl]; omega⟩

@[simp] theorem State.sp_setReg_r7 (s : State) (v : Byte) : (s.setReg .r7 v).sp = v := by
  simp [State.sp, State.reg_setReg]

/-! ### The ALU -/

@[simp] theorem State.aluInto_add (s : State) (r : Reg) (a b : Byte) :
    s.aluInto .add r a b = .ok (s.setReg r (a + b)) := rfl

@[simp] theorem State.aluInto_mul (s : State) (r : Reg) (a b : Byte) :
    s.aluInto .mul r a b = .ok (s.setReg r (a * b)) := rfl

@[simp] theorem State.aluInto_addi (s : State) (r : Reg) (a b : Byte) :
    s.aluInto .addi r a b = .ok (s.setReg r (a + b)) := rfl

@[simp] theorem State.aluInto_cmp (s : State) (r : Reg) (a b : Byte) :
    s.aluInto .cmp r a b = .ok (s.setFlags (compareFlags a b)) := rfl

/-! ### The program-counter controller -/

@[simp] theorem nextPc_hold (pc : Pc) (len : Nat) : nextPc pc len .hold = pc := rfl

@[simp] theorem nextPc_target (pc : Pc) (len : Nat) (v : Byte) : nextPc pc len (.target v) = v.setWidth 9 := rfl

@[simp] theorem nextPc_retAddr (pc : Pc) (len : Nat) (v : Byte) : nextPc pc len (.retAddr v) = v.setWidth 9 := rfl

/-- Within the memory the sequential next pc is exact (R64). -/
theorem nextPc_seq_toNat (pc : Pc) (k : Kind) (h : pc.toNat ≤ 255) :
    (nextPc pc k.length .seq).toNat = pc.toNat + k.length := by
  have := k.length_cases
  simp only [nextPc, BitVec.toNat_add, BitVec.toNat_ofNat]
  omega

/-- A target is an address 0 to 255 (R19). -/
theorem setWidth_toNat (v : Byte) : (v.setWidth 9).toNat = v.toNat := by
  have := v.isLt
  simp only [BitVec.toNat_setWidth]
  omega

/-! ### Fetching -/

@[simp] theorem Memory.bytesFrom_zero (m : Memory) (a : Nat) : m.bytesFrom a 0 = [] := rfl

theorem Memory.bytesFrom_succ (m : Memory) (a n : Nat) :
    m.bytesFrom a (n + 1) = if a < 256 then m.read a :: m.bytesFrom (a + 1) n else [] := rfl

/-- How many bytes a window has: what fits below address 256. -/
theorem Memory.bytesFrom_length (m : Memory) (a n : Nat) : (m.bytesFrom a n).length = min n (256 - a) := by
  induction n generalizing a with
  | zero => simp
  | succ n ih =>
    rw [Memory.bytesFrom_succ]
    split
    · simp only [List.length_cons, ih]; omega
    · simp; omega

/-- The bytes of a window are the memory's. -/
theorem Memory.bytesFrom_getElem (m : Memory) (a n k : Nat) (h : k < (m.bytesFrom a n).length) :
    (m.bytesFrom a n)[k] = m.read (a + k) := by
  induction n generalizing a k with
  | zero => simp at h
  | succ n ih =>
    rw [Memory.bytesFrom_length] at h
    have ha : a < 256 := by omega
    simp only [Memory.bytesFrom_succ, ha, if_true]
    cases k with
    | zero => simp
    | succ k => simp only [List.getElem_cons_succ]; rw [ih]; congr 1; omega

/-- A successful fetch is a successful decoding of the window. -/
theorem State.fetch_eq_ok {m : OpcodeMap} {s : State} {i : Instr} :
    s.fetch m = .ok i ↔ ∃ rest, decodeWith m s.fetchWindow = .ok (i, rest) := by
  unfold State.fetch
  cases h : decodeWith m s.fetchWindow with
  | ok p => obtain ⟨j, rest⟩ := p; simp
  | error e => cases e <;> simp

/-- A fetched instruction lies within the memory, its opcode byte is its kind's, and its length is its kind's. -/
theorem State.fetch_ok_bounds {m : OpcodeMap} {s : State} {i : Instr} (h : s.fetch m = .ok i) :
    s.pc.toNat + i.kind.length ≤ 256 ∧ m i.kind = s.mem.read s.pc.toNat := by
  obtain ⟨rest, h⟩ := State.fetch_eq_ok.mp h
  have hl : s.fetchWindow.length = min 3 (256 - s.pc.toNat) := Memory.bytesFrom_length ..
  unfold decodeWith at h
  split at h
  · simp at h
  · rename_i op bs hw
    split at h
    · simp at h
    · rename_i k hk
      obtain ⟨rfl, hbs⟩ := decodeOperands_ok h
      have h1 : op = s.mem.read s.pc.toNat := by
        have := Memory.bytesFrom_getElem s.mem s.pc.toNat 3 0
        simp only [State.fetchWindow] at hw
        simp [hw] at this
        simpa using this
      have h2 := i.operands_length
      rw [hw, hbs] at hl
      simp at hl
      exact ⟨by omega, by rw [OpcodeMap.kindOf_some hk, h1]⟩

/-- Everything fetching can do (R58, R59, R60). -/
theorem State.fetch_cases (m : OpcodeMap) (s : State) :
    (255 < s.pc.toNat ∧ s.fetch m = .error (.pcOutOfRange s.pc.toNat)) ∨
    (s.pc.toNat ≤ 255 ∧ m.kindOf (s.mem.read s.pc.toNat) = none ∧
      s.fetch m = .error (.unrecognizedOpcode (s.mem.read s.pc.toNat))) ∨
    (∃ k, s.pc.toNat ≤ 255 ∧ m.kindOf (s.mem.read s.pc.toNat) = some k ∧ 256 < s.pc.toNat + k.length ∧
      s.fetch m = .error (.operandOutOfRange 256)) ∨
    (∃ i, s.pc.toNat + i.kind.length ≤ 256 ∧ m.kindOf (s.mem.read s.pc.toNat) = some i.kind ∧
      s.fetch m = .ok i) := by
  by_cases h : 255 < s.pc.toNat
  · left
    refine ⟨h, ?_⟩
    have : s.fetchWindow = [] := by
      simp [State.fetchWindow, Memory.bytesFrom_succ]; omega
    simp [State.fetch, this, decodeWith]
  · right
    have hw : s.fetchWindow = s.mem.read s.pc.toNat :: s.mem.bytesFrom (s.pc.toNat + 1) 2 := by
      simp [State.fetchWindow, Memory.bytesFrom_succ]; omega
    have hlen := Memory.bytesFrom_length s.mem (s.pc.toNat + 1) 2
    cases hk : m.kindOf (s.mem.read s.pc.toNat) with
    | none =>
      left
      exact ⟨by omega, rfl, by simp [State.fetch, hw, decodeWith, hk]⟩
    | some k =>
      right
      by_cases hb : (s.mem.bytesFrom (s.pc.toNat + 1) 2).length + 1 < k.length
      · left
        have hk3 := k.length_cases
        refine ⟨k, by omega, rfl, by omega, ?_⟩
        simp only [State.fetch, hw, decodeWith, hk, decodeOperands_missing hb]
        congr 2
        omega
      · right
        have hd : ∃ i rest, decodeOperands k (s.mem.bytesFrom (s.pc.toNat + 1) 2) = .ok (i, rest) := by
          generalize s.mem.bytesFrom (s.pc.toNat + 1) 2 = bs at hb
          cases k <;> (try cases bs) <;> (try (rename_i b bs; cases bs)) <;>
            simp_all [decodeOperands, takeNone, takeOne, takeTwo, Kind.length, Kind.format, Format.length]
        obtain ⟨i, rest, hd⟩ := hd
        have hf : s.fetch m = .ok i := by simp [State.fetch, hw, decodeWith, hk, hd]
        obtain ⟨hki, -⟩ := decodeOperands_ok hd
        exact ⟨i, (State.fetch_ok_bounds hf).1, by rw [hki], hf⟩

end Sys2Proof.Machine
end

