-- ==== Sys2Proof/Laws/PerInstr.lean ====
section
/-! SUPPORT. The per-instruction family `WordShape`: an instruction's encoding has the length R46 gives its kind,
begins with its kind's opcode byte, and its register fields are among its operand bytes (R42, R43, R46, R55). One lemma per
constructor. -/

namespace Sys2Proof.Laws.WordShape

/-- What an instruction's encoding looks like, under any `OPCODE_MAP`. -/
def Statement (i : Instr) : Prop :=
  ∀ m : OpcodeMap, (encodeWith m i).length = i.kind.length ∧ (encodeWith m i).head? = some (m i.kind) ∧
    i.regFields.Sublist (encodeWith m i).tail ∧ (i.wellFormed = true ↔ ∀ b ∈ i.regFields, b.toNat ≤ 7)

/-- The shape every lemma of the family has: it is read off the encoding's two parts. -/
theorem of_regFields {i : Instr} (h : i.regFields.Sublist i.operands) : Statement i := fun m =>
  ⟨encodeWith_length m i, rfl, h, by simp [Instr.wellFormed, validRegByte]⟩

theorem ldi (a imm : Byte) : Statement (.ldi a imm) := of_regFields (by simp [Instr.regFields, Instr.operands])
theorem prn (a : Byte) : Statement (.prn a) := of_regFields (List.Sublist.refl _)
theorem hlt : Statement .hlt := of_regFields (List.Sublist.refl _)
theorem mul (a b : Byte) : Statement (.mul a b) := of_regFields (List.Sublist.refl _)
theorem push (a : Byte) : Statement (.push a) := of_regFields (List.Sublist.refl _)
theorem pop (a : Byte) : Statement (.pop a) := of_regFields (List.Sublist.refl _)
theorem call (a : Byte) : Statement (.call a) := of_regFields (List.Sublist.refl _)
theorem ret : Statement .ret := of_regFields (List.Sublist.refl _)
theorem add (a b : Byte) : Statement (.add a b) := of_regFields (List.Sublist.refl _)
theorem cmp (a b : Byte) : Statement (.cmp a b) := of_regFields (List.Sublist.refl _)
theorem jmp (a : Byte) : Statement (.jmp a) := of_regFields (List.Sublist.refl _)
theorem jne (a : Byte) : Statement (.jne a) := of_regFields (List.Sublist.refl _)
theorem jeq (a : Byte) : Statement (.jeq a) := of_regFields (List.Sublist.refl _)
theorem addi (a imm : Byte) : Statement (.addi a imm) := of_regFields (by simp [Instr.regFields, Instr.operands])

end Sys2Proof.Laws.WordShape
end

