-- ==== Sys2Proof/Laws/Safety.lean ====
section
/-! SUPPORT. The small lemmas of the terms in which a fault's cause is stated: the first bad register field (R61) and the
SP value checked (R80, R81, R84, R85). -/

namespace Sys2Proof.Machine

/-- The first bad field is a register field of the instruction, and names no register. -/
theorem firstBadField_some {i : Instr} {b : Byte} (h : firstBadField i = some b) : b ∈ i.regFields ∧ 7 < b.toNat :=
  ⟨List.mem_of_find?_eq_some h, by simpa using List.find?_some h⟩

/-- No field is bad exactly when the instruction is well formed: each field names a register. -/
theorem firstBadField_none {i : Instr} : firstBadField i = none ↔ ∀ b ∈ i.regFields, b.toNat ≤ 7 := by
  simp [firstBadField, List.find?_eq_none]

@[simp] theorem State.checkedSp_push (s : State) (a : Byte) : s.checkedSp (.push a) = s.sp := rfl

@[simp] theorem State.checkedSp_call (s : State) (a : Byte) : s.checkedSp (.call a) = s.sp := rfl

@[simp] theorem State.checkedSp_ret (s : State) : s.checkedSp .ret = s.sp := rfl

/-- POP checks the value of `x[7]` after the load of its register (R81). -/
@[simp] theorem State.checkedSp_pop (s : State) (r : Reg) :
    s.checkedSp (.pop r.byte) = (s.setReg r (s.memRead s.sp)).sp := by
  simp [State.checkedSp, State.sp, State.reg_setReg, reg_byte_inj, eq_comm]

end Sys2Proof.Machine
end

