-- ==== Sys2Proof/Laws/Step.lean ====
section
/-! SUPPORT. What one step can do: run the meaning of the instruction it fetched, take the fault of its fetch, or (not
running) nothing at all (R57, R70). -/

namespace Sys2Proof.Machine

/-- A running machine that fetches an instruction runs its meaning. -/
theorem stepWith_fetched {m : OpcodeMap} {s : State} {i : Instr} (hr : s.running = true) (hf : s.fetch m = .ok i) :
    stepWith m s = exec i s := by
  simp [stepWith, hr, hf]

/-- A running machine whose fetch faults takes the fault. -/
theorem stepWith_fetchFault {m : OpcodeMap} {s : State} {r : FaultRecord} (hr : s.running = true)
    (hf : s.fetch m = .error r) : stepWith m s = .next (s.raise r) := by
  simp [stepWith, hr, hf]

/-- A machine that is not running takes no step. -/
theorem stepWith_stopped {m : OpcodeMap} {s : State} (hr : s.running = false) :
    stepWith m s = .fault s.stopped := by
  simp [stepWith, hr]

/-- Everything a step that answers a next state did. -/
theorem stepWith_next {m : OpcodeMap} {s t : State} (h : stepWith m s = .next t) :
    s.running = true ∧
      ((∃ i, s.fetch m = .ok i ∧ exec i s = .next t) ∨ ∃ r, s.fetch m = .error r ∧ t = s.raise r) := by
  cases hr : s.running with
  | false => rw [stepWith_stopped hr] at h; cases h
  | true =>
    refine ⟨rfl, ?_⟩
    cases hf : s.fetch m with
    | ok i => rw [stepWith_fetched hr hf] at h; exact .inl ⟨i, rfl, h⟩
    | error r =>
      rw [stepWith_fetchFault hr hf] at h
      cases h
      exact .inr ⟨r, rfl, rfl⟩

/-- Every meaning answers a next state: what stops an instruction is a fault, and taking it is a next state (R93). -/
theorem exec_answers_next (i : Instr) (s : State) : ∃ t, exec i s = .next t := by
  have hc : ∀ work : Except FaultRecord State, ∃ t, s.commit work = .next t := by
    intro work
    cases work with
    | ok t => exact ⟨t, rfl⟩
    | error r => exact ⟨_, rfl⟩
  cases i with
  | hlt => exact ⟨_, rfl⟩
  | _ => exact hc _

end Sys2Proof.Machine
end

