-- ==== Sys2Proof/Tests/Slice0.lean ====
section
/-! SUPPORT. The model's own tests, with expected results from the spec (95_test_vectors.md and the rules' examples), the
well-formedness smoke test, and for each statement with hypotheses a witness that meets them. -/

namespace Sys2Proof.Tests

open Sys2Proof Sys2Proof.Machine

/-- The reset state with bytes placed at a pc. -/
def atPc (pc : Nat) (bytes : List Byte) : State :=
  { State.reset with pc := BitVec.ofNat 9 pc, mem := Memory.writeBytes [] pc bytes }

/-- One field of the next state. -/
def look {α : Type} (f : State → α) : Host.Outcome State Machine.Fault Refusal → Option α
  | .next t => some (f t)
  | .fault _ => none
  | .refused _ => none

/-! ### Well-formedness: an ill-formed term for each check, which the check refuses (R44) -/

theorem test_wellFormed_refuses_first_field : (Instr.prn 8).wellFormed = false := by decide
theorem test_wellFormed_refuses_second_field : (Instr.add 7 8).wellFormed = false := by decide
theorem test_wellFormed_refuses_no_immediate : (Instr.ldi 7 255).wellFormed = true := by decide

/-! ### Decoding: words written out bit by bit from R43 and R47 -/

theorem test_decode_ldi : decode [0b10000010, 0b00000111, 0b00010000] = .ok (.ldi 7 0x10, []) := by rfl
theorem test_decode_prn : decode [0b01000111, 0b00000011] = .ok (.prn 3, []) := by rfl
theorem test_decode_hlt : decode [0b00000001, 0b11111111] = .ok (.hlt, [0xFF]) := by rfl
theorem test_decode_mul : decode [0b10100010, 0b00000010, 0b00000001] = .ok (.mul 2 1, []) := by rfl
theorem test_decode_push : decode [0b01000101, 0b00000111] = .ok (.push 7, []) := by rfl
theorem test_decode_pop : decode [0b01000110, 0b00000100] = .ok (.pop 4, []) := by rfl
theorem test_decode_call : decode [0b01010000, 0b00000101] = .ok (.call 5, []) := by rfl
theorem test_decode_ret : decode [0b00010001] = .ok (.ret, []) := by rfl
theorem test_decode_add : decode [0b10100000, 0b00000110, 0b00000001] = .ok (.add 6 1, []) := by rfl
theorem test_decode_cmp : decode [0b10100111, 0b00000001, 0b00000110] = .ok (.cmp 1 6, []) := by rfl
theorem test_decode_jmp : decode [0b01010100, 0b00000010] = .ok (.jmp 2, []) := by rfl
theorem test_decode_jne : decode [0b01010110, 0b00000010] = .ok (.jne 2, []) := by rfl
theorem test_decode_jeq : decode [0b01010101, 0b00000011] = .ok (.jeq 3, []) := by rfl
theorem test_decode_addi : decode [0b10101110, 0b00000010, 0b11111111] = .ok (.addi 2 255, []) := by rfl
theorem test_decode_bad_field_is_decoded : decode [0x82, 0x08, 0x01] = .ok (.ldi 8 1, []) := by rfl
theorem test_decode_unrecognized : decode [0x00] = .error (.unrecognizedOpcode 0) := by rfl
theorem test_decode_missing_second : decode [0xA0, 0x01] = .error (.missingOperand 2) := by rfl
theorem test_decode_empty : decode [] = .error .noOpcode := by rfl
theorem test_table_word_add : decodeTableWord 24 0x0100A0 = some (.add 0 1) := by decide
theorem test_table_word_short : decodeTableWord 8 0xFF82 = some (.ldi 0 0) := by decide
theorem test_placed_word_runs :
    look (fun t => (t.reg .r0, t.pc)) (step (State.reset.withFetchWord 24 0x080082)) = some (8, 3) := by decide

/-! ### The dispatcher's faults (95_test_vectors.md 2.1) -/

theorem test_V1_bad_register :
    look (fun t => (t.fault, t.pc, t.running)) (step (atPc 0 [0x82, 8, 1])) =
      some (some (.badRegister 8), 0, false) := by decide
theorem test_V3_unrecognized :
    look State.fault (step (atPc 0 [0xFF])) = some (some (.unrecognizedOpcode 0xFF)) := by decide
theorem test_V4_pc_out_of_range :
    look State.fault (step (atPc 256 [])) = some (some (.pcOutOfRange 256)) := by decide
theorem test_V6_range_before_register :
    look State.fault (step (atPc 254 [0x82, 9])) = some (some (.operandOutOfRange 256)) := by decide
theorem test_V7_operand_out_of_range :
    look (fun t => (t.fault, t.out)) (step (atPc 255 [0x47])) = some (some (.operandOutOfRange 256), []) := by decide
theorem test_V8_first_field_first :
    look State.fault (step (atPc 0 [0xA0, 9, 10])) = some (some (.badRegister 9)) := by decide
theorem test_V10_checked_when_not_taken :
    look State.fault (step (atPc 0 [0x55, 9])) = some (some (.badRegister 9)) := by decide
theorem test_V11_pc_reaches_256 :
    look (fun t => (t.pc, t.running)) (step (atPc 253 [0xA0, 0, 1])) = some (256, true) := by decide
theorem test_V13_halted_takes_no_step :
    look State.pc (step { atPc 0 [0x01] with running := false }) = none := by decide

/-! ### The instructions (95_test_vectors.md 2.2 to 2.5), at most two each -/

theorem test_A2_add_wraps :
    look (fun t => (t.reg .r0, t.flags)) (step (((atPc 0 [0xA0, 0, 1]).setReg .r0 0xC8).setReg .r1 0x64)) =
      some (0x2C, Flags.clear) := by decide
theorem test_A4_add_doubles :
    look (fun t => t.reg .r0) (step ((atPc 0 [0xA0, 0, 0]).setReg .r0 0x81)) = some 0x02 := by decide
theorem test_A7_mul_wraps :
    look (fun t => t.reg .r0) (step (((atPc 0 [0xA2, 0, 1]).setReg .r0 0xFF).setReg .r1 0xFF)) = some 0x01 := by decide
theorem test_A5_mul :
    look (fun t => t.reg .r0) (step (((atPc 0 [0xA2, 0, 1]).setReg .r0 8).setReg .r1 9)) = some 0x48 := by decide
theorem test_A13_cmp_unsigned :
    look State.flags (step (((atPc 0 [0xA7, 0, 1]).setReg .r0 0x80).setReg .r1 0x7F)) =
      some ⟨false, true, false⟩ := by decide
theorem test_A15_cmp_rewrites_all :
    look State.flags
      (step ((((atPc 0 [0xA7, 0, 1]).setReg .r0 1).setReg .r1 2).setFlags ⟨true, false, false⟩)) =
      some ⟨false, false, true⟩ := by decide
theorem test_A18_addi_literal_unsigned :
    look (fun t => t.reg .r2) (step (atPc 0 [0xAE, 2, 0xFF])) = some 0xFF := by decide
theorem test_A19_addi_literal_no_register :
    look (fun t => (t.reg .r2, t.fault)) (step ((atPc 0 [0xAE, 2, 9]).setReg .r2 1)) = some (0x0A, none) := by decide
theorem test_I2_ldi_sets_sp :
    look (fun t => (t.sp, t.pc)) (step (atPc 0 [0x82, 7, 0x10])) = some (0x10, 3) := by decide
theorem test_I5_prn_sp :
    look (fun t => (t.out, t.printed)) (step (atPc 0 [0x47, 7])) =
      some ([0xF4], ['2', '4', '4', '\n']) := by decide
theorem test_K3_push_r7 :
    look (fun t => (t.sp, t.memRead 0xF3)) (step (atPc 0 [0x45, 7])) = some (0xF3, 0xF3) := by decide
theorem test_K5_push_wraps :
    look (fun t => (t.fault, t.sp)) (step ((atPc 0 [0x45, 0]).setReg .r7 0)) =
      some (some (.stackWrap 0), 0) := by decide
theorem test_K4_pop_r7 :
    look (fun t => t.sp) (step (atPc 0 [0x46, 7])) = some 0x01 := by decide
theorem test_K7_pop_r7_wraps :
    look (fun t => (t.fault, t.sp)) (step (((atPc 0 [0x46, 7]).memWrite 0x10 0xFF).setReg .r7 0x10)) =
      some (some (.stackWrap 255), 0x10) := by decide
theorem test_C1_hlt :
    look (fun t => (t.status, t.exitStatus, t.pc)) (step (atPc 11 [0x01])) = some (.halted, some 0, 11) := by decide
theorem test_C2_hlt_at_255 :
    look State.running (step (atPc 255 [0x01])) = some false := by decide
theorem test_C3_call :
    look (fun t => (t.sp, t.memRead 0xF3, t.pc)) (step ((atPc 6 [0x50, 1]).setReg .r1 0x0B)) =
      some (0xF3, 0x08, 0x0B) := by decide
theorem test_C4_call_r7 :
    look (fun t => (t.memRead 0xF3, t.pc)) (step (atPc 0 [0x50, 7])) = some (0x02, 0xF3) := by decide
theorem test_C5_call_at_254 :
    look (fun t => (t.fault, t.sp, t.memRead 0xF3)) (step (atPc 254 [0x50, 0])) =
      some (some (.returnAddressOutOfRange 256), 0xF4, 0) := by decide
theorem test_C5a_stack_wrap_first :
    look State.fault (step ((atPc 254 [0x50, 0]).setReg .r7 0)) = some (some (.stackWrap 0)) := by decide
theorem test_C6a_ret :
    look (fun t => (t.sp, t.pc)) (step ((atPc 0 [0x11]).memWrite 0xF4 0x33)) = some (0xF5, 0x33) := by decide
theorem test_C6c_ret_wraps :
    look State.fault (step ((atPc 0 [0x11]).setReg .r7 0xFF)) = some (some (.stackWrap 255)) := by decide
theorem test_C7_jmp :
    look State.pc (step ((atPc 0 [0x54, 2]).setReg .r2 0x20)) = some 0x20 := by decide
theorem test_C7a_jmp_at_254 : look State.pc (step (atPc 254 [0x54, 0])) = some 0 := by decide
theorem test_C8_jne_taken :
    look State.pc (step ((atPc 17 [0x56, 2]).setReg .r2 9)) = some 9 := by decide
theorem test_C9_jne_not_taken :
    look State.pc (step (((atPc 17 [0x56, 2]).setReg .r2 9).setFlags ⟨true, false, false⟩)) = some 19 := by decide
theorem test_C10_jeq_taken :
    look State.pc (step (((atPc 4 [0x55, 3]).setReg .r3 0x30).setFlags ⟨true, false, false⟩)) = some 0x30 := by decide
theorem test_C12_jeq_reads_e_only :
    look State.pc (step (((atPc 4 [0x55, 3]).setReg .r3 0x30).setFlags ⟨false, true, false⟩)) = some 6 := by decide

/-! ### Memory's form, the trace port, the flag byte, images and notation -/

theorem test_write_zero_unlists : Memory.write [(3, 5)] 3 0 = [] := by decide
theorem test_write_sorts : Memory.write [(3, 5)] 2 7 = [(2, 7), (3, 5)] := by decide
theorem test_trace_port_at_255 : (atPc 255 [0x01]).tracePort = (255, some 0x01, none, none) := by decide
theorem test_flag_byte : (Flags.mk false true false).toByte = 0b00000010 := by decide
theorem test_S6_image :
    parseImage "# nothing here\n\n   # indented comment\n00000001   # HLT\n".toList = .ok [0x01] := by rfl
theorem test_P9_one_digit : parseImage ['1'] = .ok [0x01] := by rfl
theorem test_P9_not_binary : parseImage ['2'] = .error .notBinary := by rfl
theorem test_P9_too_large : parseImage "100000000".toList = .error .valueTooLarge := by rfl
theorem test_P1_assembles :
    assembleWith defaultOpcodeMap
        "LOAD-IMMEDIATE R0,8; LOAD-IMMEDIATE R1,9; MULTIPLY R0,R1; PRINT-REGISTER R0; HALT".toList =
      some [0x82, 0, 8, 0x82, 1, 9, 0xA2, 0, 1, 0x47, 0, 0x01] := by decide
theorem test_label_assembles :
    assembleWith defaultOpcodeMap "LDI R2, loop\nloop: PRN R0 # here\nJNE R2".toList =
      some [0x82, 2, 3, 0x47, 0, 0x56, 2] := by decide

/-! ### Witnesses: states and operands that meet the hypotheses of the statements -/

/-- The default map meets every hypothesis of injectivity. -/
theorem witness_injective_map : defaultOpcodeMap.Injective := defaultOpcodeMap_injective

theorem witness_EncodeUndoesDecode : decodeWith defaultOpcodeMap [0xA0, 1, 2, 3] = .ok (.add 1 2, [3]) := by rfl

/-- One witness a clause: the last address, which has an opcode byte; an unmapped byte; a mapped one with just enough bytes after it, and with one too few. -/
theorem witness_DecodeLooksAtOpcodeAlone :
    (atPc 255 []).pc.toNat ≤ 255 ∧ (∀ k, defaultOpcodeMap k ≠ 0x00) ∧
    (defaultOpcodeMap .ldi = 0x82 ∧ Kind.ldi.length ≤ [(0 : Byte), 8].length + 1) ∧
    (defaultOpcodeMap .ldi = 0x82 ∧ [(0 : Byte)].length + 1 < Kind.ldi.length) :=
  ⟨by decide, fun k => by cases k <;> decide, by decide, by decide⟩

/-- The last address, holding 0x00; and the least byte that names no register. -/
theorem witness_IllegalEncodingsFault :
    ((atPc 255 []).running = true ∧ (atPc 255 []).pc.toNat ≤ 255 ∧
      ∀ k, defaultOpcodeMap k ≠ (atPc 255 []).mem.read (atPc 255 []).pc.toNat) ∧
    ∃ b ∈ (Instr.prn 8).regFields, 7 < b.toNat :=
  ⟨⟨by decide, by decide, fun k => by cases k <;> decide⟩, 8, by decide, by decide⟩

theorem witness_StepRunsDecodedInstruction :
    (atPc 253 [0xA0, 0, 1]).running = true ∧
      decodeWith defaultOpcodeMap (atPc 253 [0xA0, 0, 1]).fetchWindow = .ok (.add 0 1, []) := ⟨by decide, by rfl⟩

/-- The highest address at which a three-byte instruction fits. -/
theorem witness_StepRunsInstructionInMemory :
    (atPc 253 [0xA0, 0, 1]).running = true ∧
      (atPc 253 [0xA0, 0, 1]).holdsAtPc (encodeWith defaultOpcodeMap (.add 0 1)) :=
  ⟨by decide, by decide, fun k h => by
    have h : k < 3 := h
    interval_cases k <;> rfl⟩

/-- Two states that differ in a byte behind the instruction. -/
theorem witness_FetchDependsOnInstructionBytesOnly :
    (atPc 0 [0x01]).fetch defaultOpcodeMap = .ok .hlt ∧ (atPc 0 [0x01, 5]).pc = (atPc 0 [0x01]).pc ∧
      ∀ k < Instr.hlt.kind.length, (atPc 0 [0x01, 5]).mem.read ((atPc 0 [0x01]).pc.toNat + k) =
        (atPc 0 [0x01]).mem.read ((atPc 0 [0x01]).pc.toNat + k) := ⟨by rfl, by decide, by decide⟩

theorem witness_StepEnabledExactlyWhileRunning : ({ State.reset with running := false } : State).running = false := by
  decide

/-- At the last address: no kind; a kind that just fits; and, for OperandAboveMemoryFaults, a kind one byte too long. -/
theorem witness_HandlerIsSelectedByOpcodeByte :
    (atPc 255 []).running = true ∧ (atPc 255 []).pc.toNat ≤ 255 ∧
    defaultOpcodeMap.kindOf ((atPc 255 []).mem.read (atPc 255 []).pc.toNat) = none ∧
    (defaultOpcodeMap.kindOf ((atPc 255 [0x11]).mem.read (atPc 255 [0x11]).pc.toNat) = some .ret ∧
      (atPc 255 [0x11]).pc.toNat + Kind.ret.length ≤ 256) ∧
    (defaultOpcodeMap.kindOf ((atPc 255 [0x47]).mem.read (atPc 255 [0x47]).pc.toNat) = some .prn ∧
      256 < (atPc 255 [0x47]).pc.toNat + Kind.prn.length) := by decide

theorem witness_FetchAboveMemoryFaults : (atPc 256 []).running = true ∧ 255 < (atPc 256 []).pc.toNat := by decide

/-- The second field is the first bad one. -/
theorem witness_FirstBadRegisterFieldFaults :
    ((Instr.add 7 8).regFields.find? fun x => 7 < x.toNat) = some 8 := by decide

theorem witness_SequentialPcIsExact :
    (atPc 255 []).pc.toNat ≤ 255 ∧ (atPc 253 []).pc.toNat + Kind.add.length ≤ 256 := by decide

/-- The bad register byte of every instruction statement, at its least value. -/
theorem witness_bad_register_byte : 7 < (8 : Byte).toNat := by decide

/-- The operand clause of every instruction statement, at the last address and, for three bytes, at the one before. -/
theorem witness_operand_clause :
    (∀ k : Kind, (atPc 255 [defaultOpcodeMap k]).running = true ∧ 255 ≤ (atPc 255 [defaultOpcodeMap k]).pc.toNat ∧
      (atPc 255 [defaultOpcodeMap k]).pc.toNat ≤ 255 ∧
      defaultOpcodeMap.kindOf ((atPc 255 [defaultOpcodeMap k]).mem.read (atPc 255 [defaultOpcodeMap k]).pc.toNat) =
        some k) ∧
    (∀ k : Kind, 254 ≤ (atPc 254 [defaultOpcodeMap k]).pc.toNat ∧
      defaultOpcodeMap.kindOf ((atPc 254 [defaultOpcodeMap k]).mem.read (atPc 254 [defaultOpcodeMap k]).pc.toNat) =
        some k) :=
  ⟨fun k => by cases k <;> decide, fun k => by cases k <;> decide⟩

/-- SP 1 is the least that a PUSH may decrement; SP 0 wraps. -/
theorem witness_PushStoresAtDecrementedSp :
    (State.reset.setReg .r7 1).regs.get .r7 ≠ 0 ∧ (State.reset.setReg .r7 0).regs.get .r7 = 0 := by decide

/-- For a POP of R0 with SP 254 and 255, and for a POP of R7 of the bytes 254 and 255. -/
theorem witness_PopLoadsThenIncrementsSp :
    let after (ra : Reg) (s : State) := (s.regs.set ra (s.mem.read (s.regs.get .r7).toNat)).get .r7
    after .r0 (State.reset.setReg .r7 254) ≠ 255 ∧ after .r0 (State.reset.setReg .r7 255) = 255 ∧
    after .r7 (State.reset.memWrite 0xF4 254) ≠ 255 ∧ after .r7 (State.reset.memWrite 0xF4 255) = 255 := by decide

theorem witness_PushThenPopRestores :
    State.reset.regs.get .r7 ≠ 0 ∧ (Reg.r0 ≠ Reg.r1 ∧ Reg.r0 ≠ Reg.r7 ∧ Reg.r1 ≠ Reg.r7) := by decide

theorem witness_HltClearsRunning : State.reset.fault = none := by decide

/-- The clauses of CALL: it completes from pc 253, wraps with SP 0, and has no return address from pc 254. -/
theorem witness_CallPushesReturnAddress :
    ((atPc 253 []).regs.get .r7 ≠ 0 ∧ (atPc 253 []).pc.toNat ≤ 253) ∧
    ((atPc 254 []).setReg .r7 0).regs.get .r7 = 0 ∧
    ((atPc 254 []).regs.get .r7 ≠ 0 ∧ 253 < (atPc 254 []).pc.toNat) := by decide

/-- The clauses of RET: SP 254, SP 255, and a RET at the last address. -/
theorem witness_RetJumpsToPoppedByte :
    (State.reset.setReg .r7 254).regs.get .r7 ≠ 255 ∧ (State.reset.setReg .r7 255).regs.get .r7 = 255 ∧
    ((atPc 255 [0x11]).running = true ∧ (atPc 255 [0x11]).pc.toNat = 255 ∧
      (atPc 255 [0x11]).mem.read 255 = defaultOpcodeMap .ret) := by decide

/-- Both values of the equal flag, for JNE and JEQ, and a flag register with the opposite one. -/
theorem witness_conditional_jumps :
    State.reset.flags.e = false ∧ (State.reset.setFlags ⟨true, false, false⟩).flags.e = true ∧
      (Flags.mk true false false).e = !State.reset.flags.e := by decide

/-- A CALL from the last address it can return to, and a state that has SP and the stack cell as the CALL left them. -/
theorem witness_CallThenReturnResumes :
    (atPc 253 []).pc.toNat ≤ 253 ∧ (atPc 253 []).regs.get .r7 ≠ 0 ∧
    ∃ t u : State, exec (.call Reg.r1.byte) (atPc 253 []) = .next t ∧ u = { t with pc := 7 } ∧
      u.regs.get .r7 = t.regs.get .r7 ∧
      u.mem.read (t.regs.get .r7).toNat = t.mem.read (t.regs.get .r7).toNat :=
  ⟨by decide, by decide, _, _, rfl, rfl, rfl, rfl⟩

/-- A step that records a fault, from a state with none. -/
theorem witness_faulting_step :
    State.reset.fault = none ∧
      stepWith defaultOpcodeMap State.reset = .next (State.reset.raise (.unrecognizedOpcode 0)) ∧
      (State.reset.raise (.unrecognizedOpcode 0)).fault = some (.unrecognizedOpcode 0) := ⟨rfl, rfl, rfl⟩

/-- An instruction that records a fault, from a state with none. -/
theorem witness_faulting_instruction :
    State.reset.fault = none ∧ exec (.prn 8) State.reset = .next (State.reset.raise (.badRegister 8)) ∧
      (State.reset.raise (.badRegister 8)).fault = some (.badRegister 8) := ⟨rfl, rfl, rfl⟩

/-- The reset state has the invariant, records no fault, and its step answers. -/
theorem witness_invariant_and_step :
    State.reset.Inv ∧ State.reset.fault = none ∧
      stepWith defaultOpcodeMap State.reset = .next (State.reset.raise (.unrecognizedOpcode 0)) :=
  ⟨⟨Memory.wf_nil, by decide, by decide, by decide⟩, rfl, rfl⟩

/-- One step for each fault a run can record, from a state with no fault recorded: the causes at the ends of their ranges,
the POP of R7 whose popped byte is 0xFF with SP elsewhere among them. -/
theorem witness_FaultInformationIsTabulated :
    look State.fault (step (atPc 255 [0])) = some (some (.unrecognizedOpcode 0)) ∧
    look State.fault (step (atPc 256 [])) = some (some (.pcOutOfRange 256)) ∧
    look State.fault (step (atPc 254 [0x82, 0])) = some (some (.operandOutOfRange 256)) ∧
    look State.fault (step (atPc 0 [0xA0, 7, 8])) = some (some (.badRegister 8)) ∧
    look State.fault (step ((atPc 0 [0x45, 7]).setReg .r7 0)) = some (some (.stackWrap 0)) ∧
    look State.fault (step ((atPc 0 [0x46, 7, 0xFF]).setReg .r7 2)) = some (some (.stackWrap 255)) ∧
    look State.fault (step ((atPc 0 [0x11]).setReg .r7 255)) = some (some (.stackWrap 255)) ∧
    look State.fault (step (atPc 254 [0x50, 0])) = some (some (.returnAddressOutOfRange 256)) := by decide

/-- The clauses of the loop's end: a step that goes on, a HLT, a fault, each from a state with no fault. -/
theorem witness_LoopEndsByHltOrFault :
    (atPc 0 [0x82, 0, 8]).fault = none ∧ look State.running (step (atPc 0 [0x82, 0, 8])) = some true ∧
    look State.status (step (atPc 0 [0x01])) = some .halted ∧
    look State.status (step (atPc 0 [0x00])) = some .faulted := by decide

/-- The clauses on the running flag: a HLT, and an instruction run in a state that is not running. -/
theorem witness_OnlyResetSetsRunning :
    look State.running (exec .hlt State.reset) = some false ∧
    look State.running (exec (.ldi 0 1) { State.reset with running := false }) = some false := by decide

/-- A kind other than CMP that answers; and a JEQ under two flag registers with one E. -/
theorem witness_OnlyCompareWritesFlags :
    (Instr.jeq 0).kind ≠ .cmp ∧ look State.pc (exec (.jeq 0) State.reset) = some 2 ∧
      (Flags.mk false true false).e = State.reset.flags.e := by decide

theorem witness_OutputGrowsOnlyByPrn : look State.out (exec (.prn 7) State.reset) = some [0xF4] := by decide

/-- A register not written by a POP of R0, and one not read by an ADD of R0 and R1, written and not written. -/
theorem witness_register_tables :
    Reg.r1.byte ∉ regsWritten (.pop 0) ∧ look State.pc (exec (.pop 0) State.reset) = some 2 ∧
    (Reg.r2.byte ∉ regsRead State.reset.flags (.add 0 1) ∧ Reg.r2.byte ∉ regsWritten (.add 0 1)) ∧
    (Reg.r0.byte ∉ regsRead State.reset.flags (.ldi 0 1) ∧ Reg.r0.byte ∈ regsWritten (.ldi 0 1)) := by decide

/-- Every instruction of the four frames answers a next state, at reset. -/
theorem witness_frames :
    look State.pc (exec (.ldi 0 1) State.reset) = some 3 ∧ look State.pc (exec (.add 0 1) State.reset) = some 3 ∧
    look State.pc (exec (.mul 0 1) State.reset) = some 3 ∧ look State.pc (exec (.addi 0 1) State.reset) = some 3 ∧
    look State.pc (exec (.prn 0) State.reset) = some 2 ∧ look State.pc (exec (.cmp 0 1) State.reset) = some 3 ∧
    look State.running (exec .hlt State.reset) = some false ∧ look State.pc (exec (.jmp 7) State.reset) = some 0xF4 ∧
    look State.pc (exec (.jne 7) State.reset) = some 0xF4 ∧ look State.pc (exec (.jeq 7) State.reset) = some 2 ∧
    look State.sp (exec (.push 0) State.reset) = some 0xF3 ∧ look State.sp (exec (.call 0) State.reset) = some 0xF3 ∧
    look State.sp (exec (.pop 0) State.reset) = some 0xF5 ∧ look State.sp (exec .ret State.reset) = some 0xF5 := by
  decide

/-- The two outcomes of SP's decrement. -/
theorem witness_StackStoringFrame :
    State.reset.decSp = .ok (State.reset.setReg .r7 0xF3) ∧
      (State.reset.setReg .r7 0).decSp = .error (.stackWrap 0) := ⟨rfl, rfl⟩

/-- A register file written with the values it holds reads as it did. -/
theorem witness_RegistersReadBack : ∀ r, (Regs.reset.set .r7 0xF4).get r = Regs.reset.get r := by
  intro r; cases r <;> rfl

/-- An image of one byte loads; addresses 0 and 1 are in and beyond it. -/
theorem witness_MemoryReadsBack :
    State.reset.loadImage [0x01] = .ok { State.reset with mem := [(0, 0x01)] } ∧ 0 < [(0x01 : Byte)].length ∧
      [(0x01 : Byte)].length ≤ 1 := ⟨rfl, by decide, by decide⟩

theorem witness_CanonicalMemoriesAreEqual :
    Memory.wf [(3, 5), (255, 1)] ∧ Memory.wf (Memory.write [(255, 1)] 3 5) ∧
      ∀ a, Memory.read [(3, 5), (255, 1)] a = Memory.read (Memory.write [(255, 1)] 3 5) a :=
  ⟨by decide, by decide, fun _ => rfl⟩

/-- A PUSH that writes the next instruction's address, as P5's does; a CALL R7, as C4's. -/
theorem witness_PushedByteIsFetchedNext :
    ((atPc 6 [0x45, 0]).setReg .r7 9).regs.get .r7 ≠ 0 ∧
    look (fun t => (t.pc.toNat, (t.regs.get .r7).toNat)) (exec (.push Reg.r0.byte) ((atPc 6 [0x45, 0]).setReg .r7 9)) =
      some (8, 8) ∧
    State.reset.pc.toNat ≤ 253 ∧
    look (fun t => (t.pc.toNat, (t.regs.get .r7).toNat)) (exec (.call Reg.r7.byte) State.reset) =
      some (0xF3, 0xF3) := by decide

/-- The clauses of booting: a file that loads, one line too many, a file that does not parse, no file. -/
theorem witness_BootLoadsTheImage :
    parseImage ['1'] = .ok [0x01] ∧ [(0x01 : Byte)].length ≤ 256 ∧ parseImage ['2'] = .error .notBinary ∧
      boot .missing = .error .fileNotFound ∧ 256 < (List.replicate 257 (0x01 : Byte)).length :=
  ⟨rfl, by decide, rfl, rfl, by rw [List.length_replicate]; decide⟩

/-- A file of 257 lines parses to an image that is too long. -/
theorem witness_image_too_long : ∀ n, parseImageLines (List.replicate n ['1']) = .ok (List.replicate n 0x01) := by
  intro n
  induction n with
  | zero => rfl
  | succ n ih =>
    have h1 : parseImageLine ['1'] = .ok (some 0x01) := rfl
    rw [List.replicate_succ, List.replicate_succ, parseImageLines, h1, ih]
    rfl

/-- Digits worth 255, the most that loads, and 256; white space around them; a line that joins another. -/
theorem witness_ImageLinesGiveTheirBytes :
    (∀ x ∈ [' ', '\t'], x.isWhitespace = true) ∧
    (List.replicate 8 true).foldl (fun n b => 2 * n + b.toNat) 0 ≤ 255 ∧
    255 < (true :: List.replicate 8 false).foldl (fun n b => 2 * n + b.toNat) 0 ∧
    '\n' ∉ ['1'] ∧ parseImageLine ['1'] = .ok (some 0x01) ∧ parseImage ['1', '0'] = .ok [0x02] :=
  ⟨by simp, by decide, by decide, by decide, rfl, rfl⟩

/-- A remainder of one character that is no digit, and one of two digits with white space between them; a line
that fails, and a file that fails. -/
theorem witness_failing_lines :
    (∀ rem ∈ [['2'], ['0', ' ', '1']],
      '#' ∉ rem ∧ (∀ x ∈ rem.head?, x.isWhitespace = false) ∧ (∀ x ∈ rem.getLast?, x.isWhitespace = false) ∧
        ∃ x ∈ rem, x ≠ '0' ∧ x ≠ '1') ∧
    '\n' ∉ ['2'] ∧ parseImageLine ['2'] = .error .notBinary ∧ parseImage ['2'] = .error .notBinary :=
  ⟨by simp, by simp, rfl, rfl⟩

/-- A state with a fault recorded, and its code. -/
theorem witness_FaultCodesAreNumbered :
    (State.reset.raise (.stackWrap 0)).fault = some (.stackWrap 0) ∧ State.reset.Inv :=
  ⟨rfl, Memory.wf_nil, by decide, by decide, by decide⟩

theorem witness_AssembledInstructionsAreWellFormed :
    assembleInstrs "PRN R7\nHLT".toList = some [.prn 7, .hlt] := by decide

end Sys2Proof.Tests
end

section
/-! SUPPORT. Everything an instruction can do, said once: the relation `Runs` has one rule for each way an instruction
completes and one for each way it faults (R61, R73 to R88), and it is exactly `exec`. -/

namespace Sys2Proof.Machine

/-- What the working copy of an instruction comes to from a state (R8): the completed copy, or the fault that discards
it (R93). -/
inductive Runs : Instr → State → Except FaultRecord State → Prop
  | ldi (ra : Reg) (imm : Byte) (s : State) :
      Runs (.ldi ra.byte imm) s (.ok ((s.setReg ra imm).advance .ldi .seq))
  | prn (ra : Reg) (s : State) : Runs (.prn ra.byte) s (.ok ((s.emit (s.reg ra)).advance .prn .seq))
  | hlt (s : State) : Runs .hlt s (.ok { s with running := false })
  | mul (ra rb : Reg) (s : State) :
      Runs (.mul ra.byte rb.byte) s (.ok ((s.setReg ra (s.reg ra * s.reg rb)).advance .mul .seq))
  | pushWrap (ra : Reg) {s : State} (h : s.sp = 0) : Runs (.push ra.byte) s (.error (.stackWrap 0))
  /-- the register is read after the decrement (D26) -/
  | push (ra : Reg) {s : State} (h : s.sp ≠ 0) :
      Runs (.push ra.byte) s (.ok (((s.setReg .r7 (s.sp - 1)).memWrite (s.sp - 1)
        ((s.setReg .r7 (s.sp - 1)).reg ra)).advance .push .seq))
  /-- the value checked is that of `x[7]` after the load, which POP R7 has written -/
  | popWrap (ra : Reg) {s : State} (h : (s.setReg ra (s.memRead s.sp)).sp = 255) :
      Runs (.pop ra.byte) s (.error (.stackWrap 255))
  | pop (ra : Reg) {s : State} (h : (s.setReg ra (s.memRead s.sp)).sp ≠ 255) :
      Runs (.pop ra.byte) s (.ok (((s.setReg ra (s.memRead s.sp)).setReg .r7
        ((s.setReg ra (s.memRead s.sp)).sp + 1)).advance .pop .seq))
  | callWrap (ra : Reg) {s : State} (h : s.sp = 0) : Runs (.call ra.byte) s (.error (.stackWrap 0))
  | callReturn (ra : Reg) {s : State} (h : s.sp ≠ 0) (hpc : 253 < s.pc.toNat) :
      Runs (.call ra.byte) s (.error (.returnAddressOutOfRange (s.pc.toNat + 2)))
  /-- the target is read after the decrement (D26) -/
  | call (ra : Reg) {s : State} (h : s.sp ≠ 0) (hpc : s.pc.toNat ≤ 253) :
      Runs (.call ra.byte) s (.ok (((s.setReg .r7 (s.sp - 1)).memWrite (s.sp - 1)
        (BitVec.ofNat 8 (s.pc.toNat + 2))).advance .call (.target ((s.setReg .r7 (s.sp - 1)).reg ra))))
  | retWrap {s : State} (h : s.sp = 255) : Runs .ret s (.error (.stackWrap 255))
  | ret {s : State} (h : s.sp ≠ 255) :
      Runs .ret s (.ok ((s.setReg .r7 (s.sp + 1)).advance .ret (.retAddr (s.memRead s.sp))))
  | add (ra rb : Reg) (s : State) :
      Runs (.add ra.byte rb.byte) s (.ok ((s.setReg ra (s.reg ra + s.reg rb)).advance .add .seq))
  | cmp (ra rb : Reg) (s : State) :
      Runs (.cmp ra.byte rb.byte) s (.ok ((s.setFlags (compareFlags (s.reg ra) (s.reg rb))).advance .cmp .seq))
  | jmp (ra : Reg) (s : State) : Runs (.jmp ra.byte) s (.ok (s.advance .jmp (.target (s.reg ra))))
  | jne (ra : Reg) (s : State) :
      Runs (.jne ra.byte) s (.ok (s.advance .jne (if s.flags.e then .seq else .target (s.reg ra))))
  | jeq (ra : Reg) (s : State) :
      Runs (.jeq ra.byte) s (.ok (s.advance .jeq (if s.flags.e then .target (s.reg ra) else .seq)))
  | addi (ra : Reg) (imm : Byte) (s : State) :
      Runs (.addi ra.byte imm) s (.ok ((s.setReg ra (s.reg ra + imm)).advance .addi .seq))
  /-- a register field that names no register (R61) -/
  | badField {i : Instr} {s : State} {b : Byte} (h : firstBadField i = some b) : Runs i s (.error (.badRegister b))

/-! ### The shared operations, one equation for each of their outcomes -/

theorem State.decSp_error {s : State} (h : s.sp = 0) : s.decSp = .error (.stackWrap 0) := if_pos h

theorem State.decSp_ok {s : State} (h : s.sp ≠ 0) : s.decSp = .ok (s.setReg .r7 (s.sp - 1)) := if_neg h

theorem State.incSp_error {s : State} (h : s.sp = 255) : s.incSp = .error (.stackWrap 255) := if_pos h

theorem State.incSp_ok {s : State} (h : s.sp ≠ 255) : s.incSp = .ok (s.setReg .r7 (s.sp + 1)) := if_neg h

theorem State.returnAddress_error {s : State} (h : 253 < s.pc.toNat) :
    s.returnAddress = .error (.returnAddressOutOfRange (s.pc.toNat + 2)) :=
  (s.returnAddress_cases.resolve_right fun h' => by omega).2

theorem State.returnAddress_ok {s : State} (h : s.pc.toNat ≤ 253) :
    s.returnAddress = .ok (BitVec.ofNat 8 (s.pc.toNat + 2)) :=
  (s.returnAddress_cases.resolve_left fun h' => by omega).2

@[simp] theorem State.returnAddress_setReg (s : State) (r : Reg) (v : Byte) :
    (s.setReg r v).returnAddress = s.returnAddress := rfl

/-! ### `Runs` is `exec` -/

/-- The first field above 7 faults, or it is a register's and the first field above 7 is a later one. -/
theorem find_badField_cons {a b : Byte} {l : List Byte} (h : (a :: l).find? (fun x => 7 < x.toNat) = some b) :
    regOperand a = .error (.badRegister b) ∨
      (∃ ra, regOperand a = .ok ra) ∧ l.find? (fun x => 7 < x.toNat) = some b := by
  obtain ⟨ra, rfl, ha⟩ | ⟨hb, ha⟩ := regOperand_cases a
  · have := reg_byte_le ra
    exact .inr ⟨⟨ra, ha⟩, by rwa [List.find?_cons_of_neg (by simp; omega)] at h⟩
  · rw [List.find?_cons_of_pos (by simpa using hb)] at h
    cases h
    exact .inl ha

/-- The first register field above 7 is the fault of the instruction, whatever the state (R61, D13). -/
theorem exec_of_firstBadField {i : Instr} {b : Byte} (h : firstBadField i = some b) (s : State) :
    exec i s = .next (s.raise (.badRegister b)) := by
  cases i with
  | hlt | ret => cases h
  | ldi a imm | addi a imm | prn a | push a | pop a | call a | jmp a | jne a | jeq a =>
    obtain ha | ⟨-, h⟩ := find_badField_cons h
    · simp [exec, execLdi, execAddi, execPrn, execPush, execPop, execCall, execJmp, execJne, execJeq, ha]
    · cases h
  | mul a c | add a c | cmp a c =>
    obtain ha | ⟨⟨ra, ha⟩, h⟩ := find_badField_cons h
    · simp [exec, execMul, execAdd, execCmp, ha]
    obtain hc | ⟨-, h⟩ := find_badField_cons h
    · simp [exec, execMul, execAdd, execCmp, ha, hc]
    · cases h

/-- `exec` commits the working copy that `Runs` gives. -/
theorem Runs.exec_eq {i : Instr} {s : State} {w : Except FaultRecord State} (h : Runs i s w) :
    exec i s = s.commit w := by
  cases h with
  | badField h => exact exec_of_firstBadField h s
  | hlt => rfl
  | ldi ra | prn ra | jmp ra | jne ra | jeq ra | addi ra =>
    simp [exec, execLdi, execPrn, execJmp, execJne, execJeq, execAddi]
  | mul ra rb | add ra rb | cmp ra rb => simp [exec, execMul, execAdd, execCmp]
  | pushWrap ra h => simp [exec, execPush, State.decSp_error h]
  | push ra h => simp [exec, execPush, State.decSp_ok h]
  | popWrap ra h => simp [exec, execPop, State.incSp_error h]
  | pop ra h => simp [exec, execPop, State.incSp_ok h]
  | callWrap ra h => simp [exec, execCall, State.decSp_error h]
  | callReturn ra h hpc => simp [exec, execCall, State.decSp_ok h, State.returnAddress_error hpc]
  | call ra h hpc => simp [exec, execCall, State.decSp_ok h, State.returnAddress_ok hpc]
  | retWrap h => simp [exec, execRet, State.incSp_error h]
  | ret h => simp [exec, execRet, State.incSp_ok h]

/-- Every instruction runs, from every state. -/
theorem exists_runs (i : Instr) (s : State) : ∃ w, Runs i s w := by
  cases hb : firstBadField i with
  | some b => exact ⟨_, .badField hb⟩
  | none =>
    have reg (a : Byte) (h : a ∈ i.regFields) := exists_reg_of_le a (firstBadField_none.mp hb a h)
    cases i with
    | hlt => exact ⟨_, .hlt s⟩
    | ret =>
      by_cases h : s.sp = 255
      · exact ⟨_, .retWrap h⟩
      · exact ⟨_, .ret h⟩
    | ldi a imm | prn a | jmp a | jne a | jeq a | addi a imm =>
      obtain ⟨ra, rfl⟩ := reg a (by simp [Instr.regFields])
      constructor; constructor
    | mul a c | add a c | cmp a c =>
      obtain ⟨ra, rfl⟩ := reg a (by simp [Instr.regFields])
      obtain ⟨rc, rfl⟩ := reg c (by simp [Instr.regFields])
      constructor; constructor
    | push a =>
      obtain ⟨ra, rfl⟩ := reg a (by simp [Instr.regFields])
      by_cases h : s.sp = 0
      · exact ⟨_, .pushWrap ra h⟩
      · exact ⟨_, .push ra h⟩
    | pop a =>
      obtain ⟨ra, rfl⟩ := reg a (by simp [Instr.regFields])
      by_cases h : (s.setReg ra (s.memRead s.sp)).sp = 255
      · exact ⟨_, .popWrap ra h⟩
      · exact ⟨_, .pop ra h⟩
    | call a =>
      obtain ⟨ra, rfl⟩ := reg a (by simp [Instr.regFields])
      by_cases h : s.sp = 0
      · exact ⟨_, .callWrap ra h⟩
      by_cases hpc : 253 < s.pc.toNat
      · exact ⟨_, .callReturn ra h hpc⟩
      · exact ⟨_, .call ra h (by omega)⟩

/-- Everything an instruction that answers a next state did: it completed, or it faulted and nothing else came of it. -/
theorem exec_next {i : Instr} {s t : State} (h : exec i s = .next t) :
    Runs i s (.ok t) ∨ ∃ r, Runs i s (.error r) ∧ t = s.raise r := by
  obtain ⟨w, hw⟩ := exists_runs i s
  obtain rfl | ⟨r, rfl, ht⟩ := State.commit_eq_next (hw.exec_eq ▸ h)
  · exact .inl hw
  · exact .inr ⟨r, hw, ht⟩

/-! ### What completing keeps -/

/-- An instruction that completes records no fault (R22). -/
theorem Runs.fault_eq {i : Instr} {s t : State} (h : Runs i s (.ok t)) : t.fault = s.fault := by
  cases h <;> rfl

/-- An instruction that completes leaves the running flag, but for HLT, which clears it (R23, R83). -/
theorem Runs.running_eq {i : Instr} {s t : State} (h : Runs i s (.ok t)) :
    t.running = (s.running && i.kind != .hlt) := by
  cases h with
  | hlt => exact (Bool.and_false _).symm
  | _ => exact (Bool.and_true _).symm

/-- An instruction that completes leaves the flags, but for CMP (R20). -/
theorem Runs.flags_eq {i : Instr} {s t : State} (h : Runs i s (.ok t)) (hc : i.kind ≠ .cmp) : t.flags = s.flags := by
  cases h with
  | cmp => exact absurd rfl hc
  | _ => rfl

/-- No fault of an instruction depends on the flags. -/
theorem Runs.error_setFlags {i : Instr} {s : State} {r : FaultRecord} (h : Runs i s (.error r)) (f : Flags) :
    Runs i (s.setFlags f) (.error r) := by
  cases h <;> constructor <;> assumption

/-- What an instruction completes with depends on the flags it starts from in its own flags only, but for the E of a JNE
or JEQ, which selects the next pc (R20). -/
theorem Runs.ok_setFlags {i : Instr} {s t : State} (h : Runs i s (.ok t)) {f : Flags}
    (he : i.kind = .jne ∨ i.kind = .jeq → f.e = s.flags.e) :
    ∃ f', Runs i (s.setFlags f) (.ok (t.setFlags f')) := by
  cases h with
  | cmp ra rb => exact ⟨compareFlags (s.reg ra) (s.reg rb), .cmp ra rb (s.setFlags f)⟩
  | jne ra =>
    rw [← he (.inl rfl)]
    exact ⟨f, .jne ra (s.setFlags f)⟩
  | jeq ra =>
    rw [← he (.inr rfl)]
    exact ⟨f, .jeq ra (s.setFlags f)⟩
  | _ => exact ⟨f, by constructor <;> assumption⟩

/-- An instruction that records a fault raised it. -/
theorem exec_raised {i : Instr} {s t : State} {r : FaultRecord} (hs : s.fault = none) (h : exec i s = .next t)
    (hr : t.fault = some r) : t = s.raise r := by
  obtain hw | ⟨r', -, rfl⟩ := exec_next h
  · rw [hw.fault_eq, hs] at hr
    cases hr
  · cases hr
    rfl

/-- A step that records a fault raised it, in its fetch or in the instruction. -/
theorem stepWith_raised {m : OpcodeMap} {s t : State} {r : FaultRecord} (hs : s.fault = none)
    (h : stepWith m s = .next t) (hr : t.fault = some r) : t = s.raise r := by
  obtain ⟨-, ⟨i, -, hi⟩ | ⟨r', -, rfl⟩⟩ := stepWith_next h
  · exact exec_raised hs hi hr
  · cases hr
    rfl

/-- No instruction sets the running flag (R23). -/
theorem exec_keeps_stopped {i : Instr} {s t : State} (h : exec i s = .next t) (hs : s.running = false) :
    t.running = false := by
  obtain hw | ⟨r, -, rfl⟩ := exec_next h
  · simp [hw.running_eq, hs]
  · rfl

end Sys2Proof.Machine
end

section
/-! The statements about the architectural state (10_state.md). -/

namespace Sys2Proof.Machine

/-- Settles O38: an instruction that answers completed or raised a fault, and neither sets the running flag. -/
theorem onlyResetSetsRunning : Obligations.OnlyResetSetsRunning := by
  refine ⟨rfl, ?hlt, ?execFault, ?stepFault, fun _ _ _ => exec_keeps_stopped⟩
  case hlt =>
    intro s t h
    cases h
    rfl
  case execFault =>
    intro i s t r hs h hr
    rw [exec_raised hs h hr, State.raise_running]
  case stepFault =>
    intro m s t r hs h hr
    rw [stepWith_raised hs h hr, State.raise_running]

/-- Settles O39: a fault neither writes the flags nor depends on them, and of the ways to complete only CMP's writes
them and only JNE's and JEQ's name one, E. -/
theorem onlyCompareWritesFlags : Obligations.OnlyCompareWritesFlags := by
  refine ⟨?writes, ?cmp, ?reads⟩
  case writes =>
    intro i s t hc h
    obtain hw | ⟨r, -, rfl⟩ := exec_next h
    · exact hw.flags_eq hc
    · rfl
  case cmp =>
    intro ra rb s f
    rw [(Runs.cmp ra rb s).exec_eq]
    exact (Runs.cmp ra rb (s.setFlags f)).exec_eq
  case reads =>
    intro i s t f he h
    obtain hw | ⟨r, hw, rfl⟩ := exec_next h
    · obtain ⟨f', hw'⟩ := hw.ok_setFlags he
      exact ⟨f', hw'.exec_eq⟩
    · exact ⟨f, (hw.error_setFlags f).exec_eq⟩

/-- Settles O47, by the register file's own laws. -/
theorem registersReadBack : Obligations.RegistersReadBack := by
  refine ⟨fun b => ⟨?_, exists_reg_of_le b⟩, State.reg_setReg, fun _ _ => Regs.ext_get⟩
  rintro ⟨r, rfl⟩
  exact reg_byte_le r

/-- Settles O51, register by register. -/
theorem resetRegisters : Obligations.ResetRegisters := by
  intro r
  cases r <;> rfl

end Sys2Proof.Machine
end

section
/-! SUPPORT. The loader, said once: which images load, and what every cell of the loaded memory holds (R109). -/

namespace Sys2Proof.Machine

/-- The loader takes exactly the images that fit memory, and writes memory alone. -/
theorem State.loadImage_eq_ok {s t : State} {image : List Byte} :
    s.loadImage image = .ok t ↔ image.length ≤ 256 ∧ t = { s with mem := s.mem.writeBytes 0 image } := by
  by_cases hlen : image.length ≤ 256
  · have hfits : ¬ image.length > Config.memSize := Nat.not_lt.mpr hlen
    simp [State.loadImage, hfits, hlen, eq_comm]
  · have hlong : image.length > Config.memSize := Nat.not_le.mp hlen
    simp [State.loadImage, hlong, hlen]

/-- An image that fits stands in memory from address 0 up. -/
theorem Memory.read_writeBytes_image (m : Memory) {image : List Byte} (hlen : image.length ≤ 256) {k : Nat}
    (hk : k < image.length) : (m.writeBytes 0 image).read k = image[k] := by
  have hin : 0 ≤ k ∧ k < 0 + image.length ∧ k < 256 := by omega
  rw [Memory.read_writeBytes, dif_pos hin]
  rfl

/-- The cells past an image's end keep what they held. -/
theorem Memory.read_writeBytes_past_image (m : Memory) {image : List Byte} {a : Nat} (ha : image.length ≤ a) :
    (m.writeBytes 0 image).read a = m.read a := by
  have hout : ¬ (0 ≤ a ∧ a < 0 + image.length ∧ a < 256) := by omega
  rw [Memory.read_writeBytes, dif_neg hout]

end Sys2Proof.Machine
end

section
/-! The statements about memory (20_memory.md). -/

namespace Sys2Proof.Machine

/-- Settles O48: the read-after-write law of memory, the empty memory of the reset state, and what the loader leaves at
each address. -/
theorem memoryReadsBack : Obligations.MemoryReadsBack := by
  refine ⟨State.memRead_memWrite, fun a => Memory.read_nil a.toNat, ?loader⟩
  case loader =>
    intro s t image hload
    obtain ⟨hlen, rfl⟩ := State.loadImage_eq_ok.mp hload
    exact ⟨fun k hk => s.mem.read_writeBytes_image hlen hk, fun a ha => s.mem.read_writeBytes_past_image ha, rfl⟩

end Sys2Proof.Machine
end

section
/-! SUPPORT. The fetch of an opcode byte that names no kind, and of one whose kind fits (R59, R60); and the status that
each way of ending the loop leaves (R24, R69). -/

namespace Sys2Proof

/-- HLT is the only instruction of its kind. -/
theorem Instr.kind_eq_hlt {i : Instr} : i.kind = .hlt ↔ i = .hlt := by
  cases i <;> simp [Instr.kind]

end Sys2Proof

namespace Sys2Proof.Machine

/-- An opcode byte outside the map faults the fetch with that byte (R59). -/
theorem State.fetch_unrecognized {m : OpcodeMap} {s : State} (hpc : s.pc.toNat ≤ 255)
    (hk : m.kindOf (s.mem.read s.pc.toNat) = none) :
    s.fetch m = .error (.unrecognizedOpcode (s.mem.read s.pc.toNat)) := by
  obtain ⟨hout, -⟩ | ⟨-, -, hf⟩ | ⟨k, -, hk', -⟩ | ⟨i, -, hk', -⟩ := s.fetch_cases m
  · omega
  · exact hf
  · simp [hk] at hk'
  · simp [hk] at hk'

/-- An opcode byte whose kind fits below address 256 fetches an instruction of that kind (R59, R60). -/
theorem State.exists_fetch_of_fits {m : OpcodeMap} {s : State} {k : Kind}
    (hk : m.kindOf (s.mem.read s.pc.toNat) = some k) (hfits : s.pc.toNat + k.length ≤ 256) :
    ∃ i : Instr, i.kind = k ∧ s.fetch m = .ok i := by
  have hlen := k.length_cases
  obtain ⟨hout, -⟩ | ⟨-, hk', -⟩ | ⟨j, -, hk', hlong, -⟩ | ⟨i, -, hk', hf⟩ := s.fetch_cases m
  · omega
  · simp [hk] at hk'
  · obtain rfl : k = j := Option.some.inj (hk.symm.trans hk')
    omega
  · exact ⟨i, Option.some.inj (hk'.symm.trans hk), hf⟩

/-- A machine that stopped with no fault recorded is HALTED (R24). -/
theorem State.status_halted {s : State} (hr : s.running = false) (hf : s.fault = none) : s.status = .halted := by
  simp [State.status, hr, hf]

/-- A machine that took a fault is FAULTED (R24, R93). -/
@[simp] theorem State.status_raise (s : State) (r : FaultRecord) : (s.raise r).status = .faulted := rfl

end Sys2Proof.Machine
end

section
/-! The statements about the dispatcher (40_dispatcher.md). -/

namespace Sys2Proof.Machine

/-- Settles O12: a running machine takes the fault of its fetch or runs the instruction fetched, whose kind is the one
that the opcode byte names. -/
theorem handlerIsSelectedByOpcodeByte : Obligations.HandlerIsSelectedByOpcodeByte := by
  intro m s hrun hpc
  refine ⟨?unmapped, ?mapped⟩
  case unmapped =>
    intro hk
    exact stepWith_fetchFault hrun (State.fetch_unrecognized hpc hk)
  case mapped =>
    intro k hk hfits
    obtain ⟨i, rfl, hf⟩ := State.exists_fetch_of_fits hk hfits
    exact ⟨i, rfl, i.operands_length, stepWith_fetched hrun hf⟩

/-- Settles O37: an instruction that completes records no fault, and it stops the machine exactly when it is a HLT; a
fetch or an instruction that does not complete raised a fault. -/
theorem loopEndsByHltOrFault : Obligations.LoopEndsByHltOrFault := by
  intro m s t hs h
  obtain ⟨hrun, ⟨i, hf, hi⟩ | ⟨r, -, rfl⟩⟩ := stepWith_next h
  · obtain hw | ⟨r, -, rfl⟩ := exec_next hi
    · have hfault : t.fault = none := hw.fault_eq.trans hs
      by_cases hhlt : i = .hlt
      · subst hhlt
        exact .inr (.inl ⟨hf, State.status_halted (by simp [hw.running_eq, Instr.kind]) hfault⟩)
      · have hkind : i.kind ≠ .hlt := mt Instr.kind_eq_hlt.mp hhlt
        exact .inl ⟨by simp [hw.running_eq, hrun, hkind], hfault, by simpa [hf] using hhlt⟩
    · exact .inr (.inr ⟨r, rfl, s.status_raise r⟩)
  · exact .inr (.inr ⟨r, rfl, s.status_raise r⟩)

end Sys2Proof.Machine
end

section
/-! SUPPORT. The comparison's three flags (R72), the first bad register field by its place (R61), and the operand fault of
a kind that does not fit (R60). -/

namespace Sys2Proof.Machine

/-! ### The comparison -/

@[simp] theorem compareFlags_e {a b : Byte} : (compareFlags a b).e = true ↔ a.toNat = b.toNat := decide_eq_true_iff

@[simp] theorem compareFlags_g {a b : Byte} : (compareFlags a b).g = true ↔ b.toNat < a.toNat := decide_eq_true_iff

@[simp] theorem compareFlags_l {a b : Byte} : (compareFlags a b).l = true ↔ a.toNat < b.toNat := decide_eq_true_iff

/-- By trichotomy a comparison sets exactly one flag (R72). -/
theorem compareFlags_mem (a b : Byte) :
    compareFlags a b ∈ [⟨true, false, false⟩, ⟨false, true, false⟩, (⟨false, false, true⟩ : Flags)] := by
  obtain hlt | heq | hgt := Nat.lt_trichotomy a.toNat b.toNat
  · simp [compareFlags, hlt, hlt.ne, hlt.le]
  · simp [compareFlags, heq]
  · simp [compareFlags, hgt, hgt.ne', hgt.le]

/-! ### The first bad register field -/

/-- A field `b1` above 7 is the first bad one. -/
theorem firstBadField_of_first {i : Instr} {a : Byte} {rest : List Byte} (hi : i.regFields = a :: rest)
    (ha : 7 < a.toNat) : firstBadField i = some a := by
  rw [firstBadField, hi, List.find?_cons_of_pos (by simpa using ha)]

/-- A field `b2` above 7 is the first bad one after a `b1` that names a register. -/
theorem firstBadField_of_second {i : Instr} {ra : Reg} {b : Byte} {rest : List Byte}
    (hi : i.regFields = ra.byte :: b :: rest) (hb : 7 < b.toNat) : firstBadField i = some b := by
  have hra : ¬ 7 < ra.byte.toNat := Nat.not_lt.mpr (reg_byte_le ra)
  rw [firstBadField, hi, List.find?_cons_of_neg (by simpa using hra), List.find?_cons_of_pos (by simpa using hb)]

/-! ### Operands above the memory -/

/-- The fetch of a kind that reaches past address 255 faults with the first address outside memory (R60). -/
theorem State.fetch_operandOutOfRange {m : OpcodeMap} {s : State} {k : Kind} (hpc : s.pc.toNat ≤ 255)
    (hk : m.kindOf (s.mem.read s.pc.toNat) = some k) (hlong : 256 < s.pc.toNat + k.length) :
    s.fetch m = .error (.operandOutOfRange 256) := by
  obtain ⟨hout, -⟩ | ⟨-, hk', -⟩ | ⟨-, -, -, -, hf⟩ | ⟨i, hfits, hk', -⟩ := s.fetch_cases m
  · omega
  · simp [hk] at hk'
  · exact hf
  · obtain rfl : k = i.kind := Option.some.inj (hk.symm.trans hk')
    omega

/-- A kind has its operand fault from every address at which it no longer fits. -/
theorem operandFaultsFrom_of_length {k : Kind} {p : Nat} (hlong : 256 < p + k.length) : OperandFaultsFrom k p := by
  intro m s hrun hp hpc hk
  exact stepWith_fetchFault hrun (State.fetch_operandOutOfRange hpc hk (by omega))

end Sys2Proof.Machine
end

section
/-! The statements about the ALU instructions (41_alu.md). -/

namespace Sys2Proof.Machine

/-- Settles O21: CMP completes with the flags of its comparison, which name the one order relation that holds; a bad
register field is the first bad one, and from pc 254 the three bytes do not fit. -/
theorem cmpSetsExactlyOneFlag : Obligations.CmpSetsExactlyOneFlag := by
  refine ⟨fun _ _ _ => rfl, ?completes, ?badFirst, ?badSecond, operandFaultsFrom_of_length (by decide)⟩
  case completes =>
    intro ra rb s
    exact ⟨compareFlags (s.reg ra) (s.reg rb), (Runs.cmp ra rb s).exec_eq, compareFlags_e, compareFlags_g,
      compareFlags_l, compareFlags_mem _ _⟩
  case badFirst =>
    intro a b s ha
    exact exec_of_firstBadField (firstBadField_of_first rfl ha) s
  case badSecond =>
    intro ra b s hb
    exact exec_of_firstBadField (firstBadField_of_second rfl hb) s

end Sys2Proof.Machine
end

section
/-! The statements about register load and output (42_register_io.md). -/

namespace Sys2Proof.Machine

/-- Settles O22: LDI completes with the operand byte itself in the register of `b1`; a `b1` that names no register is
the first bad field, whatever the byte; and from pc 254 the three bytes do not fit. -/
theorem ldiLoadsImmediate : Obligations.LdiLoadsImmediate := by
  refine ⟨fun _ _ _ => rfl, ?completes, ?badRegister, operandFaultsFrom_of_length (by decide)⟩
  case completes =>
    intro ra imm s
    exact (Runs.ldi ra imm s).exec_eq
  case badRegister =>
    intro a imm s ha
    exact exec_of_firstBadField (firstBadField_of_first rfl ha) s

end Sys2Proof.Machine
end

section
/-! SUPPORT. The two ways each conditional jump completes, by the equal flag (R87, R88). -/

namespace Sys2Proof.Machine

variable {s : State}

/-- JNE with the equal flag clear goes to its register. -/
theorem exec_jne_of_clear (ra : Reg) (he : s.flags.e = false) :
    exec (.jne ra.byte) s = .next { s with pc := (s.regs.get ra).setWidth 9 } := by
  have hw := Runs.jne ra s
  rw [he] at hw
  exact hw.exec_eq

/-- JNE with the equal flag set goes on to the next instruction. -/
theorem exec_jne_of_set (ra : Reg) (he : s.flags.e = true) :
    exec (.jne ra.byte) s = .next { s with pc := s.pc + 2 } := by
  have hw := Runs.jne ra s
  rw [he] at hw
  exact hw.exec_eq

/-- JEQ with the equal flag set goes to its register. -/
theorem exec_jeq_of_set (ra : Reg) (he : s.flags.e = true) :
    exec (.jeq ra.byte) s = .next { s with pc := (s.regs.get ra).setWidth 9 } := by
  have hw := Runs.jeq ra s
  rw [he] at hw
  exact hw.exec_eq

/-- JEQ with the equal flag clear goes on to the next instruction. -/
theorem exec_jeq_of_clear (ra : Reg) (he : s.flags.e = false) :
    exec (.jeq ra.byte) s = .next { s with pc := s.pc + 2 } := by
  have hw := Runs.jeq ra s
  rw [he] at hw
  exact hw.exec_eq

end Sys2Proof.Machine
end

section
/-! The statements about control transfer (44_control.md). -/

namespace Sys2Proof.Machine

/-- Settles O30: JMP completes with the register in the pc, whatever the flags; a `b1` that names no register is the
first bad field; and at pc 255 the two bytes do not fit. -/
theorem jmpSetsPc : Obligations.JmpSetsPc := by
  refine ⟨fun _ _ => rfl, ?completes, ?badRegister, operandFaultsFrom_of_length (by decide)⟩
  case completes =>
    intro ra s
    exact (Runs.jmp ra s).exec_eq
  case badRegister =>
    intro a s ha
    exact exec_of_firstBadField (firstBadField_of_first rfl ha) s

/-- Settles O31: the equal flag selects between JNE's two ways to complete; a `b1` that names no register is the first
bad field, whatever the flag; and at pc 255 the two bytes do not fit. -/
theorem jneBranchesWhenNotEqual : Obligations.JneBranchesWhenNotEqual := by
  refine ⟨fun _ _ => rfl, fun ra _ => exec_jne_of_clear ra, fun ra _ => exec_jne_of_set ra, ?badRegister,
    operandFaultsFrom_of_length (by decide)⟩
  case badRegister =>
    intro a s ha
    exact exec_of_firstBadField (firstBadField_of_first rfl ha) s

/-- Settles O32: as JNE with the flag's two values exchanged, so that the opposite paths follow by the value of the
flag. -/
theorem jeqBranchesWhenEqual : Obligations.JeqBranchesWhenEqual := by
  refine ⟨fun _ _ => rfl, fun ra _ => exec_jeq_of_set ra, fun ra _ => exec_jeq_of_clear ra, ?badRegister,
    operandFaultsFrom_of_length (by decide), ?opposite⟩
  case badRegister =>
    intro a s ha
    exact exec_of_firstBadField (firstBadField_of_first rfl ha) s
  case opposite =>
    intro ra s f hf
    cases he : s.flags.e with
    | true =>
      rw [he] at hf
      rw [exec_jeq_of_set ra he]
      exact exec_jne_of_clear ra hf
    | false =>
      rw [he] at hf
      rw [exec_jeq_of_clear ra he]
      exact exec_jne_of_set ra hf

end Sys2Proof.Machine
end

section
/-! SUPPORT. Decoding, said once: which byte sequences decode to an instruction, and why the others do not (R42, R48,
R51); the instruction of a kind by its operand bytes (R43). -/

namespace Sys2Proof

/-- A byte sequence decodes to an instruction exactly when it is that instruction's encoding and the bytes left over,
and the map's inverse finds the instruction's kind. -/
theorem decodeWith_eq_ok {m : OpcodeMap} {bytes rest : List Byte} {i : Instr} :
    decodeWith m bytes = .ok (i, rest) ↔
      m.kindOf (m i.kind) = some i.kind ∧ bytes = encodeWith m i ++ rest := by
  constructor
  · intro h
    cases bytes with
    | nil => cases h
    | cons op bs =>
      cases hk : m.kindOf op with
      | none => simp [decodeWith, hk] at h
      | some k =>
        simp only [decodeWith, hk] at h
        obtain ⟨rfl, rfl⟩ := decodeOperands_ok h
        obtain rfl := OpcodeMap.kindOf_some hk
        exact ⟨hk, rfl⟩
  · rintro ⟨hk, rfl⟩
    simp only [encodeWith, List.cons_append, decodeWith, hk]
    exact decodeOperands_operands i rest

/-- An opcode byte outside the map's image is unrecognized (R49). -/
theorem decodeWith_unmapped {m : OpcodeMap} {op : Byte} (h : ∀ k, m k ≠ op) (bytes : List Byte) :
    decodeWith m (op :: bytes) = .error (.unrecognizedOpcode op) := by
  simp [decodeWith, OpcodeMap.kindOf_none.mpr h]

/-- An opcode byte of the map with too few bytes after it misses the first byte that is not there. -/
theorem decodeWith_missing {m : OpcodeMap} (hm : m.Injective) {k : Kind} {bytes : List Byte}
    (h : bytes.length + 1 < k.length) :
    decodeWith m (m k :: bytes) = .error (.missingOperand (bytes.length + 1)) := by
  simp [decodeWith, OpcodeMap.kindOf_apply hm, decodeOperands_missing h]

@[simp] theorem Machine.instrOf_kind (k : Kind) (a b : Byte) : (instrOf k a b).kind = k := by cases k <;> rfl

@[simp] theorem Machine.instrOf_operands (k : Kind) (a b : Byte) :
    (instrOf k a b).operands = [a, b].take (k.length - 1) := by
  cases k <;> rfl

/-- A kind has an instruction for every list of as many operand bytes as its length asks for. -/
theorem exists_instr_of_operands {k : Kind} {ops : List Byte} (h : ops.length + 1 = k.length) :
    ∃ i : Instr, i.kind = k ∧ i.operands = ops := by
  have hlen := k.length_cases
  match ops with
  | [] => exact ⟨Machine.instrOf k 0 0, by simp, by simp [← h]⟩
  | [a] => exact ⟨Machine.instrOf k a 0, by simp, by simp [← h]⟩
  | [a, b] => exact ⟨Machine.instrOf k a b, by simp, by simp [← h]⟩
  | a :: b :: c :: _ =>
    simp only [List.length_cons] at h
    omega

/-- An instruction is its kind's with the operand bytes it has. -/
theorem Instr.ext_kind_operands {i j : Instr} (hk : i.kind = j.kind) (ho : i.operands = j.operands) : i = j := by
  have hi := decodeOperands_operands i []
  rw [hk, ho, decodeOperands_operands j []] at hi
  simpa using hi.symm

/-! ### How many opcode bytes there are (R49) -/

/-- The opcode bytes of the map are the ones that its inverse finds. -/
theorem OpcodeMap.kindOf_isSome {m : OpcodeMap} {op : Byte} : (m.kindOf op).isSome = true ↔ op ∈ Kind.all.map m := by
  rw [← not_iff_not, Bool.not_eq_true, Option.isSome_eq_false_iff, Option.isNone_iff_eq_none, OpcodeMap.kindOf_none]
  simp

/-- An injective map has 14 opcode bytes. -/
theorem OpcodeMap.length_filter_isSome {m : OpcodeMap} (hm : m.Injective) :
    ((List.range 256).filter fun n => (m.kindOf (BitVec.ofNat 8 n)).isSome).length = 14 := by
  have hperm : ((List.range 256).filter fun n => (m.kindOf (BitVec.ofNat 8 n)).isSome).Perm
      (Kind.all.map fun k => (m k).toNat) := by
    refine (List.perm_ext_iff_of_nodup (List.nodup_range.filter _) ?nodup).mpr fun n => ?mem
    case nodup => exact List.Nodup.map (fun j k h => hm j k (BitVec.eq_of_toNat_eq h)) (by decide)
    case mem =>
      simp only [List.mem_filter, List.mem_range, OpcodeMap.kindOf_isSome, List.mem_map, Kind.mem_all, true_and]
      constructor
      · rintro ⟨hn, k, hk⟩
        exact ⟨k, by rw [hk, BitVec.toNat_ofNat]; omega⟩
      · rintro ⟨k, rfl⟩
        exact ⟨(m k).isLt, k, by simp⟩
  exact hperm.length_eq.trans (List.length_map _)

end Sys2Proof
end

section
/-! The statements about encoding (30_encoding.md). -/

namespace Sys2Proof.Machine

/-- Settles O2: an injective map's inverse finds every kind. -/
theorem decodeUndoesEncode : Obligations.DecodeUndoesEncode := by
  intro m hm i rest
  exact decodeWith_eq_ok.mpr ⟨OpcodeMap.kindOf_apply hm i.kind, rfl⟩

/-- Settles O3, under any map: what decodes is an encoding and the bytes left over. -/
theorem encodeUndoesDecode : Obligations.EncodeUndoesDecode := by
  intro m bytes i rest h
  exact (decodeWith_eq_ok.mp h).2.symm

end Sys2Proof.Machine
end

section
/-! SUPPORT. The fetch by what stands in memory at the pc (R58 to R60). -/

namespace Sys2Proof.Machine

/-- The window's bytes by their place: the memory's, as far as there are any and up to three. -/
theorem State.fetchWindow_getElem? (s : State) (k : Nat) :
    s.fetchWindow[k]? = if k < 3 ∧ s.pc.toNat + k < 256 then some (s.mem.read (s.pc.toNat + k)) else none := by
  have hlen : s.fetchWindow.length = min 3 (256 - s.pc.toNat) := Memory.bytesFrom_length ..
  split
  · have hk : k < s.fetchWindow.length := by omega
    rw [List.getElem?_eq_getElem hk]
    exact congrArg some (Memory.bytesFrom_getElem _ _ _ _ hk)
  · exact List.getElem?_eq_none (by omega)

/-- The window starts with the byte at the pc. -/
theorem State.fetchWindow_head? {s : State} (h : s.pc.toNat ≤ 255) :
    s.fetchWindow.head? = some (s.mem.read s.pc.toNat) := by
  rw [List.head?_eq_getElem?, State.fetchWindow_getElem?, if_pos (by omega)]
  rfl

/-- Bytes that stand in memory at the pc start the window. -/
theorem State.holdsAtPc.prefix_fetchWindow {s : State} {bytes : List Byte} (h : s.holdsAtPc bytes)
    (hlen : bytes.length ≤ 3) : bytes <+: s.fetchWindow := by
  obtain ⟨hfits, hbytes⟩ := h
  have hfits : s.pc.toNat + bytes.length ≤ 256 := hfits
  refine List.prefix_iff_getElem?.mpr fun k hk => ?_
  rw [State.fetchWindow_getElem?, if_pos (by omega), hbytes k hk]

/-- Bytes that start the window and fit stand in memory at the pc. -/
theorem State.holdsAtPc_of_prefix {s : State} {bytes : List Byte} (hfits : s.pc.toNat + bytes.length ≤ 256)
    (h : bytes <+: s.fetchWindow) : s.holdsAtPc bytes := by
  refine ⟨hfits, fun k hk => ?_⟩
  have hget := List.prefix_iff_getElem?.mp h k hk
  rw [State.fetchWindow_getElem?] at hget
  split at hget
  · exact Option.some.inj hget
  · cases hget

/-- An encoding is at most as long as the window. -/
theorem encodeWith_length_le (m : OpcodeMap) (i : Instr) : (encodeWith m i).length ≤ 3 := by
  have := i.kind.length_cases
  rw [encodeWith_length]
  omega

/-- A fetch answers an instruction exactly when the instruction's encoding stands in memory at the pc and the map's
inverse finds its kind (R48, R58 to R60). -/
theorem State.fetch_eq_ok_iff_holdsAtPc {m : OpcodeMap} {s : State} {i : Instr} :
    s.fetch m = .ok i ↔ m.kindOf (m i.kind) = some i.kind ∧ s.holdsAtPc (encodeWith m i) := by
  constructor
  · intro h
    have hfits := (State.fetch_ok_bounds h).1
    obtain ⟨rest, h⟩ := State.fetch_eq_ok.mp h
    obtain ⟨hk, hw⟩ := decodeWith_eq_ok.mp h
    exact ⟨hk, State.holdsAtPc_of_prefix (by rwa [encodeWith_length]) ⟨rest, hw.symm⟩⟩
  · rintro ⟨hk, hh⟩
    obtain ⟨rest, hw⟩ := hh.prefix_fetchWindow (encodeWith_length_le m i)
    exact State.fetch_eq_ok.mpr ⟨rest, decodeWith_eq_ok.mpr ⟨hk, hw.symm⟩⟩

/-- A fetched instruction is the one of its kind with the bytes that follow the pc. -/
theorem State.eq_instrOf_of_fetch {m : OpcodeMap} {s : State} {i : Instr} (h : s.fetch m = .ok i) :
    i = instrOf i.kind (s.mem.read (s.pc.toNat + 1)) (s.mem.read (s.pc.toNat + 2)) := by
  obtain ⟨-, -, hbytes⟩ := State.fetch_eq_ok_iff_holdsAtPc.mp h
  have hlen := i.operands_length
  refine Instr.ext_kind_operands (by simp) ?_
  rw [instrOf_operands]
  refine List.ext_getElem ?length fun n hn hn' => ?getElem
  case length =>
    have := i.kind.length_cases
    simp only [List.length_take, List.length_cons, List.length_nil]
    omega
  case getElem =>
    have hread := hbytes (n + 1) (by simpa [encodeWith] using hn)
    simp only [encodeWith, List.getElem_cons_succ] at hread
    rw [← hread, List.getElem_take]
    have : n < 2 := by simp at hn'; omega
    interval_cases n <;> rfl

/-- The register fields of a kind's instruction, read off its format (R43). -/
theorem instrOf_regFields (k : Kind) (a b : Byte) : (instrOf k a b).regFields = Format.registerBytes k.format a b := by
  cases k <;> rfl

/-- The fetch of a pc above 255 faults with the pc (R58). -/
theorem State.fetch_pcOutOfRange {m : OpcodeMap} {s : State} (h : 255 < s.pc.toNat) :
    s.fetch m = .error (.pcOutOfRange s.pc.toNat) := by
  obtain ⟨-, hf⟩ | ⟨hpc, -⟩ | ⟨k, hpc, -⟩ | ⟨i, hfits, -⟩ := s.fetch_cases m
  · exact hf
  · omega
  · omega
  · have := i.kind.length_cases
    omega

/-- An instruction with a register field above 7 has a first one (R61). -/
theorem exists_firstBadField {i : Instr} (h : ∃ b ∈ i.regFields, 7 < b.toNat) :
    ∃ b ∈ i.regFields, 7 < b.toNat ∧ firstBadField i = some b := by
  cases hb : firstBadField i with
  | some b => exact ⟨b, (firstBadField_some hb).1, (firstBadField_some hb).2, rfl⟩
  | none =>
    obtain ⟨b, hmem, hbad⟩ := h
    have := firstBadField_none.mp hb b hmem
    omega

/-- A machine that is not running takes no step of a run either (R57). -/
theorem core_run_stopped {s : State} (h : s.running = false) (n : Nat) :
    Host.Core.run Sys2Proof.core (n + 1) s = .fault s.stopped := by
  have hstep : Sys2Proof.core.step s = .fault s.stopped := stepWith_stopped h
  simp only [Host.Core.run, hstep]

end Sys2Proof.Machine
end

section
/-! The statements about decoding and illegal encodings (30_encoding.md). -/

namespace Sys2Proof.Machine

/-- Settles O4: an opcode byte of the map with enough bytes after it starts the encoding of the instruction of its kind
with those bytes. -/
theorem decodeLooksAtOpcodeAlone : Obligations.DecodeLooksAtOpcodeAlone := by
  refine ⟨fun s => State.fetchWindow_head?, fun m hm op bytes => ⟨fun h => decodeWith_unmapped h bytes, ?mapped⟩⟩
  case mapped =>
    rintro k rfl
    refine ⟨fun hlen => ?enough, decodeWith_missing hm⟩
    have hpos := k.length_cases
    obtain ⟨i, rfl, hops⟩ := exists_instr_of_operands (k := k) (ops := bytes.take (k.length - 1))
      (by rw [List.length_take]; omega)
    refine ⟨i, rfl, hops, decodeWith_eq_ok.mpr ⟨OpcodeMap.kindOf_apply hm _, ?_⟩⟩
    simp [encodeWith, hops]

/-- Settles O5: the opcode bytes are the map's image, which has 14 members, listed for the default map; a byte outside
it faults the fetch, and the first bad register field faults the instruction. -/
theorem illegalEncodingsFault : Obligations.IllegalEncodingsFault := by
  refine ⟨?count, ?default, rfl, ?unmapped, ?badField⟩
  case count =>
    intro m hm
    have hsplit := List.length_eq_length_filter_add (l := List.range 256)
      fun n => (m.kindOf (BitVec.ofNat 8 n)).isSome
    simp only [List.length_range, OpcodeMap.length_filter_isSome hm, Option.not_isSome] at hsplit
    omega
  case default =>
    intro op
    rw [← Option.isNone_iff_eq_none, ← Option.isSome_eq_false_iff, ← Bool.not_eq_true, OpcodeMap.kindOf_isSome]
    rfl
  case unmapped =>
    intro m s hrun hpc hk
    exact stepWith_fetchFault hrun (State.fetch_unrecognized hpc (OpcodeMap.kindOf_none.mpr hk))
  case badField =>
    intro i s h
    obtain ⟨b, hmem, hbad, hfirst⟩ := exists_firstBadField h
    exact ⟨b, hmem, hbad, exec_of_firstBadField hfirst s⟩

/-- Settles O1: each word is the encoding of its instruction under the default map, which decoding undoes. -/
theorem decodesWordsOfTheSpec : Obligations.DecodesWordsOfTheSpec := by
  have word (i : Instr) : decode (encode i ++ []) = .ok (i, []) :=
    decodeUndoesEncode defaultOpcodeMap defaultOpcodeMap_injective i []
  exact ⟨word (.ldi 3 255), word (.prn 7), word .hlt, word (.mul 0 1), word (.push 2), word (.pop 6),
    word (.call 1), word .ret, word (.add 5 4), word (.cmp 1 2), word (.jmp 2), word (.jne 3), word (.jeq 4),
    word (.addi 2 9)⟩

/-- Settles O6, opcode by opcode. -/
theorem defaultMapFollowsItsConvention : Obligations.DefaultMapFollowsItsConvention := by
  intro k
  cases k <;> decide

end Sys2Proof.Machine
end

section
/-! The statements about fetching and stepping (40_dispatcher.md). -/

namespace Sys2Proof.Machine

/-- Settles O7: what the window decodes to is the instruction fetched. -/
theorem stepRunsDecodedInstruction : Obligations.StepRunsDecodedInstruction :=
  ⟨fun _ _ _ rest hrun h => stepWith_fetched hrun (State.fetch_eq_ok.mpr ⟨rest, h⟩), fun _ => rfl⟩

/-- Settles O8: an injective map's inverse finds the kind of the encoding that stands at the pc. -/
theorem stepRunsInstructionInMemory : Obligations.StepRunsInstructionInMemory := by
  intro m hm i s hrun h
  exact stepWith_fetched hrun (State.fetch_eq_ok_iff_holdsAtPc.mpr ⟨OpcodeMap.kindOf_apply hm _, h⟩)

/-- Settles O9: each of the four ways a fetch ends is a branch of the pseudocode, and the instruction fetched is the one
it builds from the bytes after the pc. -/
theorem stepIsReferencePseudocode : Obligations.StepIsReferencePseudocode := by
  intro m s
  cases hrun : s.running with
  | false => simp [referenceStep, hrun, stepWith_stopped hrun]
  | true =>
    obtain ⟨hpc, hf⟩ | ⟨hpc, hk, hf⟩ | ⟨k, hpc, hk, hlong, hf⟩ | ⟨i, hfits, hk, hf⟩ := s.fetch_cases m
    · rw [stepWith_fetchFault hrun hf]
      simp [referenceStep, hrun, hpc]
    · rw [stepWith_fetchFault hrun hf]
      simp [referenceStep, hrun, Nat.not_lt.mpr hpc, hk]
    · rw [stepWith_fetchFault hrun hf]
      have hlen := k.length_cases
      obtain hpc | hpc : s.pc.toNat = 255 ∨ s.pc.toNat = 254 ∧ k.length = 3 := by omega
      · have hoperands : 2 ≤ k.length := by omega
        simp only [referenceStep, hrun, hk]
        simp [hpc, hoperands]
      · simp only [referenceStep, hrun, hk]
        simp [hpc]
    · rw [stepWith_fetched hrun hf]
      have hlen := i.kind.length_cases
      have hpc : ¬ 255 < s.pc.toNat := by omega
      have hb1 : ¬ (2 ≤ i.kind.length ∧ 255 < s.pc.toNat + 1) := by omega
      have hb2 : ¬ (i.kind.length = 3 ∧ 255 < s.pc.toNat + 2) := by omega
      simp only [referenceStep, hrun, hpc, hk, hb1, hb2, if_false, Bool.true_eq_false, ← instrOf_regFields,
        ← State.eq_instrOf_of_fetch hf]
      cases hbad : i.regFields.find? fun b => 7 < b.toNat with
      | none => rfl
      | some b => exact exec_of_firstBadField hbad s

/-- Settles O10: the encoding of the instruction fetched stands at the pc in both memories. -/
theorem fetchDependsOnInstructionBytesOnly : Obligations.FetchDependsOnInstructionBytesOnly := by
  intro m s t i hf hpc hmem
  obtain ⟨hk, hfits, hbytes⟩ := State.fetch_eq_ok_iff_holdsAtPc.mp hf
  refine State.fetch_eq_ok_iff_holdsAtPc.mpr ⟨hk, hpc ▸ hfits, fun k hlt => ?_⟩
  rw [hpc, hmem k (by rwa [encodeWith_length] at hlt), hbytes k hlt]

/-- Settles O11: a running machine runs an instruction, which answers, or takes the fault of its fetch. -/
theorem stepEnabledExactlyWhileRunning : Obligations.StepEnabledExactlyWhileRunning := by
  refine ⟨fun m s => ⟨fun ⟨t, h⟩ => (stepWith_next h).1, fun hrun => ?running⟩, fun _ _ => stepWith_stopped,
    fun s n h => core_run_stopped h n⟩
  case running =>
    cases hf : s.fetch m with
    | ok i => exact stepWith_fetched hrun hf ▸ exec_answers_next i s
    | error r => exact ⟨_, stepWith_fetchFault hrun hf⟩

/-- Settles O13: the fetch of a kind that does not fit faults with address 256. -/
theorem operandAboveMemoryFaults : Obligations.OperandAboveMemoryFaults := by
  intro m s k hrun hpc hk hlong
  exact stepWith_fetchFault hrun (State.fetch_operandOutOfRange hpc hk hlong)

/-- Settles O14: the fetch of a pc above 255 faults with the pc. -/
theorem fetchAboveMemoryFaults : Obligations.FetchAboveMemoryFaults := by
  intro m s hrun hpc
  exact stepWith_fetchFault hrun (State.fetch_pcOutOfRange hpc)

/-- Settles O15: `firstBadField` names the field. -/
theorem firstBadRegisterFieldFaults : Obligations.FirstBadRegisterFieldFaults := by
  intro i s b h
  exact exec_of_firstBadField h s

/-- Settles O16: nine bits hold the sum of a memory address and a length. -/
theorem sequentialPcIsExact : Obligations.SequentialPcIsExact := by
  intro k s hpc
  have hnext : (s.advance k .seq).pc.toNat = s.pc.toNat + k.length := nextPc_seq_toNat s.pc k hpc
  exact ⟨hnext, fun hfits => hnext.trans_le hfits⟩

end Sys2Proof.Machine
end

section
/-! SUPPORT. What an instruction that completes does to each part of the state: the registers and cells it writes, the
output, the next pc (R14, R25, R31, R63); and what `exec` therefore leaves unchanged, a fault having left everything. -/

namespace Sys2Proof.Machine

variable {i : Instr} {s t : State}

/-! ### An instruction that completes -/

/-- The registers outside the "writes" column keep their value (R14). -/
theorem Runs.regs_eq (h : Runs i s (.ok t)) {q : Reg} (hq : q.byte ∉ regsWritten i) :
    t.regs.get q = s.regs.get q := by
  cases h with
  | prn | hlt | cmp | jmp | jne | jeq => rfl
  | ldi ra | mul ra | add ra | addi ra | push ra | pop ra | call ra | ret =>
    simp only [regsWritten, List.mem_cons, List.not_mem_nil, or_false, not_or, reg_byte_inj] at hq
    simp [Regs.get_set, hq]

/-- Only PUSH and CALL write memory (R31). -/
theorem Runs.mem_eq (h : Runs i s (.ok t)) (hpush : i.kind ≠ .push) (hcall : i.kind ≠ .call) : t.mem = s.mem := by
  cases h with
  | push => exact absurd rfl hpush
  | call => exact absurd rfl hcall
  | _ => rfl

/-- PUSH and CALL write the one cell at the decremented SP, which has not wrapped (R80, R84). -/
theorem Runs.mem_write (h : Runs i s (.ok t)) (hk : i.kind = .push ∨ i.kind = .call) :
    s.sp ≠ 0 ∧ ∃ v, t.mem = s.mem.write (s.sp - 1).toNat v := by
  cases h with
  | push ra hsp | call ra hsp => exact ⟨hsp, _, rfl⟩
  | _ => simp [Instr.kind] at hk

/-- Only PRN writes the output, by appending its register (R25, R79). -/
theorem Runs.out_cases (h : Runs i s (.ok t)) :
    t.out = s.out ∨ ∃ r : Reg, i = .prn r.byte ∧ t.out = s.out ++ [s.regs.get r] := by
  cases h with
  | prn ra => exact .inr ⟨ra, rfl, rfl⟩
  | _ => exact .inl rfl

/-- The four selections of the next pc (R63): hold, the next instruction, or a byte. -/
theorem Runs.pc_cases (h : Runs i s (.ok t)) :
    t.pc = s.pc ∨ t.pc = nextPc s.pc i.kind.length .seq ∨ ∃ v : Byte, t.pc = v.setWidth 9 := by
  cases h with
  | hlt => exact .inl rfl
  | ldi | prn | mul | push | pop | add | cmp | addi => exact .inr (.inl rfl)
  | call | ret | jmp => exact .inr (.inr ⟨_, rfl⟩)
  | jne | jeq =>
    cases he : s.flags.e
    · simp [Instr.kind]
    · simp [Instr.kind]

/-! ### What `exec` leaves unchanged -/

theorem exec_regs (h : exec i s = .next t) {q : Reg} (hq : q.byte ∉ regsWritten i) :
    t.regs.get q = s.regs.get q := by
  obtain hw | ⟨r, -, rfl⟩ := exec_next h
  · exact hw.regs_eq hq
  · rfl

theorem exec_flags (h : exec i s = .next t) (hk : i.kind ≠ .cmp) : t.flags = s.flags :=
  onlyCompareWritesFlags.1 i s t hk h

theorem exec_mem (h : exec i s = .next t) (hpush : i.kind ≠ .push) (hcall : i.kind ≠ .call) : t.mem = s.mem := by
  obtain hw | ⟨r, -, rfl⟩ := exec_next h
  · exact hw.mem_eq hpush hcall
  · rfl

theorem exec_out_cases (h : exec i s = .next t) :
    t.out = s.out ∨ ∃ r : Reg, i = .prn r.byte ∧ t.out = s.out ++ [s.regs.get r] := by
  obtain hw | ⟨r, -, rfl⟩ := exec_next h
  · exact hw.out_cases
  · exact .inl rfl

theorem exec_out (h : exec i s = .next t) (hk : i.kind ≠ .prn) : t.out = s.out := by
  obtain ho | ⟨r, rfl, -⟩ := exec_out_cases h
  · exact ho
  · exact absurd rfl hk

/-- Only HLT writes the status without a fault (R23). -/
theorem exec_status (h : exec i s = .next t) (hk : i.kind ≠ .hlt) :
    (t.running = s.running ∧ t.fault = s.fault) ∨ ∃ r, t = s.raise r := by
  obtain hw | ⟨r, -, rfl⟩ := exec_next h
  · exact .inl ⟨by simp [hw.running_eq, hk], hw.fault_eq⟩
  · exact .inr ⟨r, rfl⟩

/-- The instructions that are none of CMP, PRN, PUSH, CALL and HLT leave all but the registers and the pc. -/
theorem exec_frame (h : exec i s = .next t) (hk : i.kind ∉ [.cmp, .prn, .push, .call, .hlt]) :
    t.flags = s.flags ∧ t.out = s.out ∧ (∀ addr, t.mem.read addr = s.mem.read addr) ∧
      ((t.running = s.running ∧ t.fault = s.fault) ∨ ∃ r, t = s.raise r) := by
  simp only [List.mem_cons, List.not_mem_nil, or_false, not_or] at hk
  obtain ⟨hcmp, hprn, hpush, hcall, hhlt⟩ := hk
  exact ⟨exec_flags h hcmp, exec_out h hprn, fun _ => by rw [exec_mem h hpush hcall], exec_status h hhlt⟩

/-- PUSH and CALL leave every cell but the one at the decremented SP. -/
theorem exec_mem_of_decSp_ok (h : exec i s = .next t) (hk : i.kind = .push ∨ i.kind = .call) {u : State}
    (hu : s.decSp = .ok u) {addr : Nat} (haddr : addr ≠ u.sp.toNat) : t.mem.read addr = s.mem.read addr := by
  obtain hw | ⟨r, -, rfl⟩ := exec_next h
  · obtain ⟨hsp, v, hmem⟩ := hw.mem_write hk
    rw [State.decSp_ok hsp] at hu
    cases hu
    rw [State.sp_setReg_r7] at haddr
    rw [hmem, Memory.read_write, if_neg haddr]
  · rfl

/-- PUSH and CALL leave all of memory where the decrement of SP faults. -/
theorem exec_mem_of_decSp_error (h : exec i s = .next t) (hk : i.kind = .push ∨ i.kind = .call) {r : FaultRecord}
    (hr : s.decSp = .error r) : t.mem = s.mem := by
  obtain hw | ⟨r, -, rfl⟩ := exec_next h
  · obtain ⟨hsp, -⟩ := hw.mem_write hk
    rw [State.decSp_ok hsp] at hr
    cases hr
  · rfl

end Sys2Proof.Machine
end

section
/-! SUPPORT. The invariant, over one instruction and over fault entry (R19, R21, R24). -/

namespace Sys2Proof.Machine

variable {i : Instr} {s t : State}

theorem Runs.mem_wf (h : Runs i s (.ok t)) (hs : s.mem.wf) : t.mem.wf := by
  by_cases hk : i.kind = .push ∨ i.kind = .call
  · obtain ⟨-, v, hmem⟩ := h.mem_write hk
    exact hmem ▸ Memory.wf_write hs (s.sp - 1).isLt v
  · obtain ⟨hpush, hcall⟩ := not_or.mp hk
    exact h.mem_eq hpush hcall ▸ hs

/-- An instruction within the memory leaves the pc at most at the first address past it (R19). -/
theorem Runs.pc_le (h : Runs i s (.ok t)) (hfits : s.pc.toNat + i.kind.length ≤ 256) : t.pc.toNat ≤ 256 := by
  have hlen := i.kind.length_cases
  obtain hpc | hpc | ⟨v, hpc⟩ := h.pc_cases
  · rw [hpc]
    omega
  · rwa [hpc, nextPc_seq_toNat _ _ (by omega)]
  · rw [hpc, setWidth_toNat]
    exact v.isLt.le

theorem compareFlags_atMostOne (a b : Byte) : (compareFlags a b).atMostOne = true := by
  have hmem := compareFlags_mem a b
  simp only [List.mem_cons, List.not_mem_nil, or_false] at hmem
  obtain hf | hf | hf := hmem <;> rw [hf] <;> rfl

theorem Runs.flags_atMostOne (h : Runs i s (.ok t)) (hs : s.flags.atMostOne = true) : t.flags.atMostOne = true := by
  cases h with
  | cmp ra rb => exact compareFlags_atMostOne (s.reg ra) (s.reg rb)
  | _ => exact hs

/-- An instruction that lies within the memory keeps the invariant when it completes. -/
theorem Runs.inv (h : Runs i s (.ok t)) (hs : s.Inv) (hfits : s.pc.toNat + i.kind.length ≤ 256) : t.Inv where
  memory := h.mem_wf hs.memory
  pc := h.pc_le hfits
  flags := h.flags_atMostOne hs.flags
  status hfault := by simp [h.running_eq, hs.status (h.fault_eq ▸ hfault)]

/-- Fault entry keeps the invariant. -/
theorem State.Inv.raise (h : s.Inv) (r : FaultRecord) : (s.raise r).Inv :=
  ⟨h.memory, h.pc, h.flags, fun _ => rfl⟩

end Sys2Proof.Machine
end

section
/-! The statements about the invariant. -/

namespace Sys2Proof.Machine

/-- Settles O54: an instruction fetched lies within the memory, so that completing it keeps every part of the invariant;
a fetch or an instruction that faults changes no part but the status. -/
theorem stepKeepsInvariant : Obligations.StepKeepsInvariant := by
  intro m s t hs h
  obtain ⟨-, ⟨i, hf, hi⟩ | ⟨r, -, rfl⟩⟩ := stepWith_next h
  · obtain hw | ⟨r, -, rfl⟩ := exec_next hi
    · exact hw.inv hs (State.fetch_ok_bounds hf).1
    · exact hs.raise r
  · exact hs.raise r

/-- Settles O53, part by part. -/
theorem resetMeetsInvariant : Obligations.ResetMeetsInvariant where
  memory := Memory.wf_nil
  pc := by decide
  flags := by decide
  status := fun h => absurd rfl h

end Sys2Proof.Machine
end

section
/-! The statements about what an instruction leaves unchanged (10_state.md, 20_memory.md). -/

namespace Sys2Proof.Machine

/-- Settles O40: of the ways to complete only PRN's writes the output. -/
theorem outputGrowsOnlyByPrn : Obligations.OutputGrowsOnlyByPrn :=
  fun _ _ _ => exec_out_cases

/-- Settles O41: of the ways to complete none writes a register outside its table, and a fault writes none at all. -/
theorem registersWrittenAreTabulated : Obligations.RegistersWrittenAreTabulated :=
  fun _ _ _ _ h => exec_regs h

/-- Settles O43: the four instructions write the register of `b1`. -/
theorem registerWritingFrame : Obligations.RegisterWritingFrame := by
  intro a b s t h
  obtain ⟨i, hi, hk, hw⟩ : ∃ i : Instr,
      exec i s = .next t ∧ i.kind ∉ [.cmp, .prn, .push, .call, .hlt] ∧ regsWritten i = [a] := by
    obtain h | h | h | h := h
    all_goals exact ⟨_, h, by simp [Instr.kind], rfl⟩
  exact ⟨fun q hq => exec_regs hi (by simpa [hw] using hq), exec_frame hi hk⟩

/-- Settles O44: the six instructions have an empty "writes" column and are neither PUSH nor CALL. -/
theorem noRegisterFrame : Obligations.NoRegisterFrame := by
  intro i s t hk h
  have hw : regsWritten i = [] := by
    cases i with
    | prn | cmp | hlt | jmp | jne | jeq => rfl
    | _ => simp [Instr.kind] at hk
  have hne (k : Kind) (hout : k ∉ [.prn, .cmp, .hlt, .jmp, .jne, .jeq]) : i.kind ≠ k := fun e => hout (e ▸ hk)
  have hmem := exec_mem h (hne .push (by decide)) (hne .call (by decide))
  refine ⟨fun q => exec_regs h (by simp [hw]), fun _ => by rw [hmem], exec_out h, exec_flags h, ?halted,
    exec_status h⟩
  case halted =>
    intro hhlt
    obtain rfl := Instr.kind_eq_hlt.mp hhlt
    cases h
    rfl

/-- Settles O45: PUSH and CALL write R7 and the cell at the decremented SP, and are none of CMP, PRN and HLT. -/
theorem stackStoringFrame : Obligations.StackStoringFrame := by
  intro a s t h
  obtain ⟨i, hi, hk, hw⟩ :
      ∃ i, exec i s = .next t ∧ (i.kind = .push ∨ i.kind = .call) ∧ regsWritten i = [Reg.r7.byte] := by
    obtain h | h := h
    · exact ⟨_, h, .inl rfl, rfl⟩
    · exact ⟨_, h, .inr rfl, rfl⟩
  have hne (k : Kind) (hpush : Kind.push ≠ k) (hcall : Kind.call ≠ k) : i.kind ≠ k := by
    obtain hk | hk := hk <;> rwa [hk]
  exact ⟨fun q hq => exec_regs hi (by simpa [hw, reg_byte_inj] using hq),
    exec_flags hi (hne .cmp (by decide) (by decide)), exec_out hi (hne .prn (by decide) (by decide)),
    fun u hu addr haddr => exec_mem_of_decSp_ok hi hk hu haddr,
    fun r hr addr => by rw [exec_mem_of_decSp_error hi hk hr], exec_status hi (hne .hlt (by decide) (by decide))⟩

/-- Settles O46: POP writes its register and R7, and RET writes R7. -/
theorem stackLoadingFrame : Obligations.StackLoadingFrame := by
  refine ⟨fun a s t h => ⟨fun q hq hqa => exec_regs h ?pop, exec_frame h (by simp [Instr.kind])⟩,
    fun s t h => ⟨fun q hq => exec_regs h ?ret, exec_frame h (by simp [Instr.kind])⟩⟩
  case pop => simp [regsWritten, reg_byte_inj, hq, hqa]
  case ret => simp [regsWritten, reg_byte_inj, hq]

end Sys2Proof.Machine
end

section
/-! SUPPORT. The causes of an instruction's faults (R90, R91). -/

namespace Sys2Proof.Machine

variable {i : Instr} {s t : State} {r : FaultRecord}

/-- An instruction that records a fault ran into it. -/
theorem runs_error_of_exec (hs : s.fault = none) (h : exec i s = .next t) (hr : t.fault = some r) :
    Runs i s (.error r) := by
  obtain hw | ⟨r', hw, rfl⟩ := exec_next h
  · simp [hw.fault_eq, hs] at hr
  · cases hr
    exact hw

/-- An instruction with a bad register field has an operand byte. -/
theorem format_ne_f0_of_firstBadField {b : Byte} (h : firstBadField i = some b) : i.kind.format ≠ .f0 := by
  cases i with
  | hlt | ret => cases h
  | _ => nofun

/-- Each fault of an instruction is in its row of R91's table. -/
theorem Runs.mayRaise (h : Runs i s (.error r)) : mayRaise i.kind r = true := by
  cases h with
  | badField h => exact bne_iff_ne.mpr (format_ne_f0_of_firstBadField h)
  | pushWrap | popWrap | callWrap | callReturn | retWrap => rfl

/-- A one-field instruction whose field is a register's has no bad field. -/
theorem firstBadField_of_byte {ra : Reg} (h : i.regFields = [ra.byte]) : firstBadField i = none := by
  rw [firstBadField_none, h]
  simpa using reg_byte_le ra

/-- A fault of the instruction fetched has the cause and the information that R90 gives it. -/
theorem Runs.asTabulated {m : OpcodeMap} (hf : s.fetch m = .ok i) (h : Runs i s (.error r)) :
    r.asTabulated m s := by
  cases h with
  | badField h => exact ⟨i, hf, h⟩
  | pushWrap ra h | callWrap ra h =>
    exact ⟨_, hf, firstBadField_of_byte rfl, h.symm, .inl ⟨by simp [Instr.kind], rfl⟩⟩
  | popWrap ra h =>
    exact ⟨_, hf, firstBadField_of_byte rfl, (State.checkedSp_pop s ra ▸ h).symm, .inr ⟨by simp [Instr.kind], rfl⟩⟩
  | retWrap h => exact ⟨_, hf, rfl, h.symm, .inr ⟨by simp [Instr.kind], rfl⟩⟩
  | callReturn ra h hpc =>
    have hfits : s.pc.toNat + 2 ≤ 256 := (State.fetch_ok_bounds hf).1
    exact ⟨_, hf, firstBadField_of_byte rfl, h, rfl, by omega⟩

/-- A fault of the fetch has the cause and the information that R90 gives it, from a pc that a run reaches. -/
theorem State.fetch_error_asTabulated {m : OpcodeMap} (hpc : s.pc.toNat ≤ 256) (hf : s.fetch m = .error r) :
    r.asTabulated m s := by
  obtain ⟨hout, hf'⟩ | ⟨hin, hk, hf'⟩ | ⟨k, hin, hk, hlong, hf'⟩ | ⟨i, -, -, hf'⟩ := s.fetch_cases m
  all_goals
    rw [hf'] at hf
    cases hf
  · exact ⟨rfl, by omega⟩
  · exact ⟨hin, rfl, OpcodeMap.kindOf_none.mp hk⟩
  · exact ⟨rfl, hin, k, hk, hlong⟩

end Sys2Proof.Machine
end

section
/-! The statements about faults (60_exceptions.md). -/

namespace Sys2Proof.Machine

/-- Settles O34: fault entry is on the state before the step. -/
theorem nothingOfAFaultingInstructionSurvives : Obligations.NothingOfAFaultingInstructionSurvives :=
  fun _ _ _ _ => stepWith_raised

/-- Settles O35, fault by fault. -/
theorem instructionsRaiseOnlyTheirFaults : Obligations.InstructionsRaiseOnlyTheirFaults :=
  fun _ _ _ _ hs h hr => (runs_error_of_exec hs h hr).mayRaise

/-- Settles O36: the record is the one of the fetch or of the instruction fetched, and each has its cause. -/
theorem faultInformationIsTabulated : Obligations.FaultInformationIsTabulated := by
  intro m s t r hinv hs h hr
  obtain ⟨-, ⟨i, hf, hi⟩ | ⟨r', hf, rfl⟩⟩ := stepWith_next h
  · exact (runs_error_of_exec hs hi hr).asTabulated hf
  · cases hr
    exact State.fetch_error_asTabulated hinv.pc hf

end Sys2Proof.Machine
end

section
/-! SUPPORT. An instruction run with another register changed: the registers it reads are those of R14's table. -/

namespace Sys2Proof.Machine

variable {i : Instr} {s t : State} {q : Reg}

/-- Writes of two registers commute. -/
theorem State.setReg_comm (s : State) {r q : Reg} (h : q ≠ r) (v x : Byte) :
    (s.setReg q v).setReg r x = (s.setReg r x).setReg q v := by
  simp only [State.setReg, Regs.set_comm s.regs v x h.symm]

/-- The second write of a register is the one that counts. -/
@[simp] theorem State.setReg_setReg (s : State) (r : Reg) (v x : Byte) :
    (s.setReg r v).setReg r x = s.setReg r x := by
  simp only [State.setReg, Regs.set_set]

/-- A register reads the same after the write of another. -/
theorem State.reg_setReg_ne (s : State) {r q : Reg} (h : q ≠ r) (v : Byte) : (s.setReg q v).reg r = s.reg r := by
  rw [State.reg_setReg, if_neg h.symm]

theorem State.sp_setReg_ne (s : State) (h : q ≠ .r7) (v : Byte) : (s.setReg q v).sp = s.sp :=
  s.reg_setReg_ne h v

@[simp] theorem State.memRead_setReg (s : State) (r : Reg) (v a : Byte) : (s.setReg r v).memRead a = s.memRead a :=
  rfl

/-- The value that POP checks does not depend on a register other than R7. -/
theorem State.sp_load_setReg_ne (s : State) (hq : q ≠ .r7) (v : Byte) (ra : Reg) (x : Byte) :
    ((s.setReg q v).setReg ra x).sp = (s.setReg ra x).sp := by
  simp only [State.sp, State.reg_setReg, hq.symm, if_false]

theorem State.advance_setReg (s : State) (r : Reg) (v : Byte) (k : Kind) (sel : PcSelect) :
    (s.advance k sel).setReg r v = (s.setReg r v).advance k sel := rfl

theorem State.memWrite_setReg (s : State) (r : Reg) (v a x : Byte) :
    (s.memWrite a x).setReg r v = (s.setReg r v).memWrite a x := rfl

/-- A register outside a column that starts with R7, as that of every instruction with a check of SP does, is not R7. -/
theorem ne_r7_of_notMem {l : List Byte} (h : q.byte ∉ Reg.r7.byte :: l) : q ≠ .r7 :=
  fun e => h (e ▸ List.mem_cons_self)

/-- A fault of an instruction depends on no register outside the "reads" column. -/
theorem Runs.error_setReg {r : FaultRecord} (h : Runs i s (.error r)) (hr : q.byte ∉ regsRead s.flags i) (v : Byte) :
    Runs i (s.setReg q v) (.error r) := by
  cases h with
  | badField h => exact .badField h
  | pushWrap ra h => exact .pushWrap ra (by rwa [s.sp_setReg_ne (ne_r7_of_notMem hr)])
  | popWrap ra h =>
    have hq := ne_r7_of_notMem hr
    exact .popWrap ra (by rwa [s.sp_setReg_ne hq, s.memRead_setReg, s.sp_load_setReg_ne hq])
  | callWrap ra h => exact .callWrap ra (by rwa [s.sp_setReg_ne (ne_r7_of_notMem hr)])
  | callReturn ra h hpc => exact .callReturn ra (by rwa [s.sp_setReg_ne (ne_r7_of_notMem hr)]) hpc
  | retWrap h => exact .retWrap (by rwa [s.sp_setReg_ne (ne_r7_of_notMem hr)])

/-- The completed copy of an instruction with a register changed that it neither reads nor writes is the completed copy
it had, with that register changed. -/
theorem Runs.ok_setReg (h : Runs i s (.ok t)) (hr : q.byte ∉ regsRead s.flags i) (hw : q.byte ∉ regsWritten i)
    (v : Byte) : Runs i (s.setReg q v) (.ok (t.setReg q v)) := by
  cases h with
  | hlt => exact .hlt (s.setReg q v)
  | ldi ra imm =>
    simp only [regsWritten, List.mem_singleton, reg_byte_inj] at hw
    rw [State.advance_setReg, ← s.setReg_comm hw v]
    exact .ldi ra imm (s.setReg q v)
  | mul ra rb | add ra rb =>
    simp only [regsRead, List.mem_cons, List.not_mem_nil, or_false, not_or, reg_byte_inj] at hr
    rw [State.advance_setReg, ← s.setReg_comm hr.1 v, ← s.reg_setReg_ne hr.1 v, ← s.reg_setReg_ne hr.2 v]
    constructor
  | addi ra imm =>
    simp only [regsRead, List.mem_singleton, reg_byte_inj] at hr
    rw [State.advance_setReg, ← s.setReg_comm hr v, ← s.reg_setReg_ne hr v]
    exact .addi ra imm (s.setReg q v)
  | prn ra | jmp ra =>
    simp only [regsRead, List.mem_singleton, reg_byte_inj] at hr
    rw [← s.reg_setReg_ne hr v]
    constructor
  | cmp ra rb =>
    simp only [regsRead, List.mem_cons, List.not_mem_nil, or_false, not_or, reg_byte_inj] at hr
    rw [← s.reg_setReg_ne hr.1 v, ← s.reg_setReg_ne hr.2 v]
    exact .cmp ra rb (s.setReg q v)
  | jne ra =>
    have h := Runs.jne ra (s.setReg q v)
    cases he : s.flags.e with
    | true => rwa [State.setReg_flags, he] at h
    | false => rwa [State.setReg_flags, he, s.reg_setReg_ne (by simpa [regsRead, he, reg_byte_inj] using hr)] at h
  | jeq ra =>
    have h := Runs.jeq ra (s.setReg q v)
    cases he : s.flags.e with
    | true => rwa [State.setReg_flags, he, s.reg_setReg_ne (by simpa [regsRead, he, reg_byte_inj] using hr)] at h
    | false => rwa [State.setReg_flags, he] at h
  | push ra h =>
    simp only [regsRead, List.mem_cons, List.not_mem_nil, or_false, not_or, reg_byte_inj] at hr
    rw [State.advance_setReg, State.memWrite_setReg, ← State.reg_setReg_ne _ hr.2 v, ← s.setReg_comm hr.1 v,
      ← s.sp_setReg_ne hr.1 v]
    exact .push ra (by rwa [s.sp_setReg_ne hr.1])
  | call ra h hpc =>
    simp only [regsRead, List.mem_cons, List.not_mem_nil, or_false, not_or, reg_byte_inj] at hr
    rw [State.advance_setReg, State.memWrite_setReg, ← State.reg_setReg_ne _ hr.2 v, ← s.setReg_comm hr.1 v,
      ← s.sp_setReg_ne hr.1 v]
    exact .call ra (by rwa [s.sp_setReg_ne hr.1]) hpc
  | pop ra h =>
    simp only [regsWritten, List.mem_cons, List.not_mem_nil, or_false, not_or, reg_byte_inj] at hw
    rw [State.advance_setReg, ← State.setReg_comm _ hw.2 v, ← s.setReg_comm hw.1 v, ← s.sp_load_setReg_ne hw.2 v,
      ← s.sp_setReg_ne hw.2 v]
    exact .pop ra (by rwa [s.sp_load_setReg_ne hw.2, s.memRead_setReg, s.sp_setReg_ne hw.2])
  | ret h =>
    have hq := ne_r7_of_notMem hr
    rw [State.advance_setReg, ← s.setReg_comm hq v, ← s.sp_setReg_ne hq v]
    exact .ret (by rwa [s.sp_setReg_ne hq])

/-- The completed copy of an instruction with a register changed that it writes and does not read is the completed copy
it had. -/
theorem Runs.ok_setReg_of_written (h : Runs i s (.ok t)) (hr : q.byte ∉ regsRead s.flags i)
    (hw : q.byte ∈ regsWritten i) (v : Byte) : Runs i (s.setReg q v) (.ok t) := by
  cases h with
  | prn | hlt | cmp | jmp | jne | jeq => cases hw
  | mul | add | addi => exact absurd (List.mem_singleton.mp hw ▸ List.mem_cons_self) hr
  | push | call | ret => exact absurd (List.mem_singleton.mp hw ▸ List.mem_cons_self) hr
  | ldi ra imm =>
    obtain rfl := reg_byte_inj.mp (List.mem_singleton.mp hw)
    rw [← s.setReg_setReg q v imm]
    exact .ldi q imm (s.setReg q v)
  | pop ra h =>
    have hq := ne_r7_of_notMem hr
    obtain rfl : q = ra := by simpa [regsWritten, reg_byte_inj, hq] using hw
    rw [← s.setReg_setReg q v (s.memRead s.sp), ← s.sp_setReg_ne hq v] at h ⊢
    exact .pop q h

end Sys2Proof.Machine
end

section
/-! The statement about the "reads" column (10_state.md). -/

namespace Sys2Proof.Machine

/-- Settles O42: neither a fault nor a completed copy depends on a register outside the "reads" column, which it keeps
changed unless it is written. -/
theorem registersReadAreTabulated : Obligations.RegistersReadAreTabulated := by
  intro i s q v hr
  obtain ⟨w, h⟩ := exists_runs i s
  rw [h.exec_eq]
  cases w with
  | ok t => exact ⟨fun hw => (h.ok_setReg hr hw v).exec_eq, fun hw => .inl (h.ok_setReg_of_written hr hw v).exec_eq⟩
  | error r =>
    have herr := (h.error_setReg hr v).exec_eq
    exact ⟨fun _ => herr, fun _ => .inr ⟨r, rfl, herr⟩⟩

end Sys2Proof.Machine
end

section
/-! SUPPORT. A byte's sums, products, predecessor and successor as R72, R80 and R81 write them, and its decimal text
(R79). -/

namespace Sys2Proof

/-- A sum modulo 256 is the sum of the bytes (D2). -/
theorem byte_add (a b : Byte) : BitVec.ofNat 8 ((a.toNat + b.toNat) % 256) = a + b :=
  BitVec.eq_of_toNat_eq (by simp)

/-- A product modulo 256 is the product of the bytes (D2). -/
theorem byte_mul (a b : Byte) : BitVec.ofNat 8 ((a.toNat * b.toNat) % 256) = a * b :=
  BitVec.eq_of_toNat_eq (by simp)

/-- The predecessor of a byte other than 0 does not wrap. -/
theorem byte_pred_toNat {a : Byte} (h : a ≠ 0) : (a - 1).toNat = a.toNat - 1 := by
  bv_omega

theorem byte_pred {a : Byte} (h : a ≠ 0) : BitVec.ofNat 8 (a.toNat - 1) = a - 1 := by
  rw [← byte_pred_toNat h, BitVec.ofNat_toNat, BitVec.setWidth_eq]

theorem byte_succ (a : Byte) : BitVec.ofNat 8 (a.toNat + 1) = a + 1 :=
  BitVec.eq_of_toNat_eq (by simp)

/-- The predecessor of a byte other than 0 may be incremented again. -/
theorem byte_pred_ne {a : Byte} (h : a ≠ 0) : a - 1 ≠ 255 := by
  bv_omega

/-- A decimal digit's character is its place after '0'. -/
theorem digitChar_of_lt {n : Nat} (h : n < 10) : n.digitChar = Char.ofNat (48 + n) := by
  interval_cases n <;> rfl

/-- The decimal text of a byte is that of its number (R79). -/
theorem Machine.decimal_eq_toDigits (v : Byte) : decimal v = Nat.toDigits 10 v.toNat := by
  have hv := v.isLt
  simp only [decimal]
  split
  case isTrue h1 => rw [Nat.toDigits_of_lt_base h1, digitChar_of_lt h1]
  case isFalse h1 =>
    rw [Nat.toDigits_of_base_le (by omega) (by omega), digitChar_of_lt (n := v.toNat % 10) (by omega)]
    split
    case isTrue h2 => rw [Nat.toDigits_of_lt_base (by omega), digitChar_of_lt (by omega), List.singleton_append]
    case isFalse h2 =>
      rw [Nat.toDigits_of_base_le (by omega) (by omega), Nat.toDigits_of_lt_base (by omega),
        digitChar_of_lt (by omega), digitChar_of_lt (by omega), Nat.div_div_eq_div_mul]
      rfl

end Sys2Proof
end

section
/-! SUPPORT. What PUSH and CALL leave at the new SP, and the POP and the RET after them (R82, R89). -/

namespace Sys2Proof.Machine

variable {s t : State}

/-- A byte stored at an address to which SP is moved stands on top of the stack. -/
theorem State.top_of_store (s : State) (a v : Byte) :
    ((s.setReg .r7 a).memWrite a v).sp = a ∧
      ((s.setReg .r7 a).memWrite a v).memRead ((s.setReg .r7 a).memWrite a v).sp = v := by
  have hsp : ((s.setReg .r7 a).memWrite a v).sp = a := s.sp_setReg_r7 a
  exact ⟨hsp, by rw [hsp, State.memRead_memWrite, if_pos rfl]⟩

/-- PUSH leaves its register, as it is after the decrement, at the new SP. -/
theorem exec_push_top {r : Reg} (h : s.sp ≠ 0) (ht : exec (.push r.byte) s = .next t) :
    t.sp = s.sp - 1 ∧ t.memRead t.sp = t.reg r := by
  rw [(Runs.push r h).exec_eq] at ht
  cases ht
  exact s.top_of_store _ _

/-- CALL leaves its return address at the new SP. -/
theorem exec_call_top {r : Reg} (h : s.sp ≠ 0) (hpc : s.pc.toNat ≤ 253) (ht : exec (.call r.byte) s = .next t) :
    t.sp = s.sp - 1 ∧ t.memRead t.sp = BitVec.ofNat 8 (s.pc.toNat + 2) := by
  rw [(Runs.call r h hpc).exec_eq] at ht
  cases ht
  exact s.top_of_store _ _

/-- The byte at SP heads the window of a machine whose pc is SP. -/
theorem State.fetchWindow_head_of_pc_eq_sp (h : t.pc.toNat = t.sp.toNat) :
    t.fetchWindow.head? = some (t.memRead t.sp) := by
  have := t.sp.isLt
  rw [State.fetchWindow_head? (by omega), h]
  rfl

@[simp] theorem State.setReg_reg (s : State) (r : Reg) : s.setReg r (s.reg r) = s := by
  simp only [State.setReg, State.reg_def, Regs.set_get]

/-- Loading a register leaves SP, if it is another one or gets the value it holds. -/
theorem State.sp_setReg_reg {r q : Reg} (hq : q = r ∨ q ≠ .r7) : (t.setReg q (t.reg r)).sp = t.sp := by
  obtain rfl | hq := hq
  · rw [State.setReg_reg]
  · exact t.sp_setReg_ne hq _

/-- A PUSH and then a POP that leaves SP before its increment: the register popped into has the byte pushed, SP is what
it was, and nothing else but the cell below SP and the pc is changed. -/
theorem push_then_pop {r q : Reg} (h : s.sp ≠ 0) (hq : q = r ∨ q ≠ .r7) :
    ∃ t u, exec (.push r.byte) s = .next t ∧ exec (.pop q.byte) t = .next u ∧
      t.memRead (s.sp - 1) = t.reg r ∧
      u = { ((s.setReg .r7 (s.sp - 1)).setReg q ((s.setReg .r7 (s.sp - 1)).reg r)).setReg .r7 s.sp with
        mem := t.mem, pc := s.pc + 4 } := by
  obtain ⟨t, ht⟩ := exec_answers_next (.push r.byte) s
  obtain ⟨hsp, htop⟩ := exec_push_top h ht
  have hpop := (Runs.pop q (s := t) (by rw [htop, State.sp_setReg_reg hq, hsp]; exact byte_pred_ne h)).exec_eq
  refine ⟨t, _, ht, hpop, hsp ▸ htop, ?_⟩
  have hpc : s.pc + 2 + 2 = s.pc + 4 := by rw [BitVec.add_assoc]; rfl
  rw [htop, State.sp_setReg_reg hq, hsp, BitVec.sub_add_cancel, ← hpc]
  rw [(Runs.push r h).exec_eq] at ht
  cases ht
  rfl

end Sys2Proof.Machine
end

section
/-! The statements about the ALU and its instructions (41_alu.md). -/

namespace Sys2Proof.Machine

/-- Settles O17: the ALU's arithmetic is that of bytes, and equal bytes are those of equal numbers. -/
theorem aluComputesItsOperations : Obligations.AluComputesItsOperations := by
  intro a b
  rw [byte_add, byte_mul]
  refine ⟨rfl, rfl, rfl, ?_, fun _ => rfl⟩
  simp [alu, compareFlags, BitVec.toNat_inj]

/-- Settles O18: ADD completes with the sum of its registers; a bad register field is the first bad one; and from pc 254
the three bytes do not fit. -/
theorem addWritesSumModulo256 : Obligations.AddWritesSumModulo256 := by
  refine ⟨fun _ _ _ => rfl, ?completes, ?badFirst, ?badSecond, operandFaultsFrom_of_length (by decide)⟩
  case completes =>
    intro ra rb s
    rw [byte_add]
    exact (Runs.add ra rb s).exec_eq
  case badFirst =>
    intro a b s ha
    exact exec_of_firstBadField (firstBadField_of_first rfl ha) s
  case badSecond =>
    intro ra b s hb
    exact exec_of_firstBadField (firstBadField_of_second rfl hb) s

/-- Settles O19, as ADD with the product of its registers. -/
theorem mulWritesProductModulo256 : Obligations.MulWritesProductModulo256 := by
  refine ⟨fun _ _ _ => rfl, ?completes, ?badFirst, ?badSecond, operandFaultsFrom_of_length (by decide)⟩
  case completes =>
    intro ra rb s
    rw [byte_mul]
    exact (Runs.mul ra rb s).exec_eq
  case badFirst =>
    intro a b s ha
    exact exec_of_firstBadField (firstBadField_of_first rfl ha) s
  case badSecond =>
    intro ra b s hb
    exact exec_of_firstBadField (firstBadField_of_second rfl hb) s

/-- Settles O20: ADDI completes with the sum of its register and the operand byte itself; its one register field is
`b1`; and from pc 254 the three bytes do not fit. -/
theorem addiWritesSumWithLiteral : Obligations.AddiWritesSumWithLiteral := by
  refine ⟨fun _ _ _ => rfl, ?completes, ?badRegister, operandFaultsFrom_of_length (by decide)⟩
  case completes =>
    intro ra imm s
    rw [byte_add]
    exact (Runs.addi ra imm s).exec_eq
  case badRegister =>
    intro a imm s ha
    exact exec_of_firstBadField (firstBadField_of_first rfl ha) s

end Sys2Proof.Machine
end

section
/-! The statements about output and the stack (42_register_io.md, 43_stack.md). -/

namespace Sys2Proof.Machine

/-- Settles O23: PRN completes with its register at the end of the output; a `b1` that names no register is the first bad
field; at pc 255 the two bytes do not fit; and the text of a byte is its number's. -/
theorem prnAppendsRegister : Obligations.PrnAppendsRegister := by
  refine ⟨fun _ _ => rfl, ?completes, ?badRegister, operandFaultsFrom_of_length (by decide), ?printed⟩
  case completes =>
    intro ra s
    exact (Runs.prn ra s).exec_eq
  case badRegister =>
    intro a s ha
    exact exec_of_firstBadField (firstBadField_of_first rfl ha) s
  case printed =>
    intro s v
    simp [State.printed, decimal_eq_toDigits]

/-- Settles O24: the value of SP selects between PUSH's two ways to end, the check of `b1` coming first; and at pc 255
the two bytes do not fit. -/
theorem pushStoresAtDecrementedSp : Obligations.PushStoresAtDecrementedSp := by
  refine ⟨fun _ _ => rfl, ?completes, fun ra _ h => (Runs.pushWrap ra h).exec_eq, ?badRegister,
    operandFaultsFrom_of_length (by decide)⟩
  case completes =>
    intro ra s h
    simp only [byte_pred h]
    exact (Runs.push ra h).exec_eq
  case badRegister =>
    intro a s ha
    exact exec_of_firstBadField (firstBadField_of_first rfl ha) s

/-- Settles O25: the value of `x[7]` after the load selects between POP's two ways to end, the check of `b1` coming
first; and at pc 255 the two bytes do not fit. -/
theorem popLoadsThenIncrementsSp : Obligations.PopLoadsThenIncrementsSp := by
  refine ⟨fun _ _ => rfl, ?loads, ?badRegister, operandFaultsFrom_of_length (by decide)⟩
  case loads =>
    intro ra s
    simp only [byte_succ]
    exact ⟨fun h => (Runs.pop ra h).exec_eq, fun h => (Runs.popWrap ra h).exec_eq⟩
  case badRegister =>
    intro a s ha
    exact exec_of_firstBadField (firstBadField_of_first rfl ha) s

/-- Settles O26: what POP loads is the byte pushed, which the same register holds already and another gets. -/
theorem pushThenPopRestores : Obligations.PushThenPopRestores := by
  refine ⟨?same, ?other⟩
  case same =>
    intro r s h
    obtain ⟨t, u, ht, hu, htop, rfl⟩ := push_then_pop (r := r) h (.inl rfl)
    refine ⟨t, _, ht, hu, ?_, ?_⟩
    · rw [State.setReg_reg, State.setReg_setReg, State.sp_def, State.setReg_reg]
    · rw [← byte_pred_toNat h]
      exact htop
  case other =>
    intro r q s hne hr hq h
    obtain ⟨t, u, ht, hu, -, rfl⟩ := push_then_pop (r := r) h (.inr hq)
    refine ⟨t, _, ht, hu, ?_⟩
    rw [State.reg_setReg_ne _ hr.symm, State.setReg_comm _ hq, State.setReg_setReg, State.sp_def, State.setReg_reg]
    rfl

end Sys2Proof.Machine
end

section
/-! The statements about HLT, CALL and RET (44_control.md). -/

namespace Sys2Proof.Machine

/-- Settles O27: HLT completes with `running` cleared and the fault status as it was. -/
theorem hltClearsRunning : Obligations.HltClearsRunning := by
  refine ⟨fun _ => rfl, fun s => ⟨_, (Runs.hlt s).exec_eq, rfl, fun h => ?_⟩⟩
  have hstatus := State.status_halted (s := { s with running := false }) rfl h
  exact ⟨hstatus, by simp [State.exitStatus, hstatus]⟩

/-- Settles O28: SP and then the pc select between CALL's three ways to end, the check of `b1` coming first; and at pc
255 the two bytes do not fit. -/
theorem callPushesReturnAddress : Obligations.CallPushesReturnAddress := by
  refine ⟨fun _ _ => rfl, ?completes, fun ra _ h => (Runs.callWrap ra h).exec_eq,
    fun ra _ h hpc => (Runs.callReturn ra h hpc).exec_eq, ?badRegister, operandFaultsFrom_of_length (by decide)⟩
  case completes =>
    intro ra s h hpc
    simp only [byte_pred h]
    exact (Runs.call ra h hpc).exec_eq
  case badRegister =>
    intro a s ha
    exact exec_of_firstBadField (firstBadField_of_first rfl ha) s

/-- Settles O29: SP selects between RET's two ways to end, and its one byte fits at address 255. -/
theorem retJumpsToPoppedByte : Obligations.RetJumpsToPoppedByte := by
  refine ⟨fun _ => rfl, ?completes, fun _ h => (Runs.retWrap h).exec_eq, ?lastAddress⟩
  case completes =>
    intro s h
    rw [byte_succ]
    exact (Runs.ret h).exec_eq
  case lastAddress =>
    intro m s hm hrun hpc hop
    refine stepRunsInstructionInMemory m hm .ret s hrun ⟨hpc ▸ le_rfl, fun k hk => ?_⟩
    obtain rfl : k = 0 := Nat.lt_one_iff.mp hk
    rw [hpc]
    exact hop

/-- Settles O33: the RET finds the CALL's return address at the CALL's SP, and its increment undoes the decrement. -/
theorem callThenReturnResumes : Obligations.CallThenReturnResumes := by
  intro ra s t u hpc h ht hsp hcell
  obtain ⟨htsp, htop⟩ := exec_call_top h hpc ht
  have husp : u.sp = s.sp - 1 := hsp.trans htsp
  have hutop : u.memRead u.sp = BitVec.ofNat 8 (s.pc.toNat + 2) := by
    rw [State.memRead, husp, ← htsp, ← htop]
    exact hcell
  refine ⟨_, (Runs.ret (s := u) (husp ▸ byte_pred_ne h)).exec_eq, ?pc, ?sp⟩
  case pc =>
    rw [State.advance_pc, nextPc_retAddr, setWidth_toNat, hutop, BitVec.toNat_ofNat]
    omega
  case sp =>
    rw [husp, BitVec.sub_add_cancel]
    exact u.sp_setReg_r7 s.sp

end Sys2Proof.Machine
end

section
/-! The statement about the fetch of a stored byte (20_memory.md, 70_reset_and_hazards.md). -/

namespace Sys2Proof.Machine

/-- Settles O50: the byte stored stands at the new SP, and the window is read from memory. -/
theorem pushedByteIsFetchedNext : Obligations.PushedByteIsFetchedNext := by
  refine ⟨?push, ?call, State.fetchWindow_getElem?⟩
  case push =>
    intro r s t h ht hpc
    exact (State.fetchWindow_head_of_pc_eq_sp hpc).trans (congrArg some (exec_push_top h ht).2)
  case call =>
    intro r s t h hle ht hpc
    exact (State.fetchWindow_head_of_pc_eq_sp hpc).trans (congrArg some (exec_call_top h hle ht).2)

end Sys2Proof.Machine
end

section
/-! SUPPORT. Memories in canonical form, by their first cell (R30). -/

namespace Sys2Proof.Machine

variable {m m' : Memory} {a b : Nat} {v w : Byte}

/-- The parts of a canonical memory: its first cell is listed for a byte other than 0 and below all others. -/
theorem Memory.wf_cons (h : Memory.wf ((a, v) :: m)) : v ≠ 0 ∧ (∀ c ∈ m, a < c.1) ∧ m.wf := by
  obtain ⟨hsorted, hcells⟩ := h
  obtain ⟨hlt, hsorted⟩ := List.pairwise_cons.mp hsorted
  obtain ⟨hcell, hcells⟩ := List.forall_mem_cons.mp hcells
  exact ⟨hcell.2, hlt, hsorted, hcells⟩

/-- Below its first cell a canonical memory reads 0. -/
theorem Memory.read_of_lt_head (h : Memory.wf ((b, w) :: m)) (hlt : a < b) : Memory.read ((b, w) :: m) a = 0 := by
  obtain ⟨-, hrest, -⟩ := Memory.wf_cons h
  exact Memory.read_of_lt_all (List.forall_mem_cons.mpr ⟨hlt, fun c hc => hlt.trans (hrest c hc)⟩)

/-- The first cell of a memory reads as listed. -/
theorem Memory.read_head : Memory.read ((a, v) :: m) a = v := if_pos rfl

/-- Two canonical memories that read alike have no cell before the other's first. -/
theorem Memory.head_le (h : Memory.wf ((a, v) :: m)) (h' : Memory.wf ((b, w) :: m'))
    (hread : Memory.read ((a, v) :: m) a = Memory.read ((b, w) :: m') a) : b ≤ a := by
  by_contra hlt
  rw [Memory.read_head, Memory.read_of_lt_head h' (Nat.not_le.mp hlt)] at hread
  exact (Memory.wf_cons h).1 hread

/-- A canonical memory that reads 0 everywhere lists no cell. -/
theorem Memory.eq_nil_of_read (h : m.wf) (hread : ∀ a, m.read a = 0) : m = [] := by
  cases m with
  | nil => rfl
  | cons c m =>
    obtain ⟨a, v⟩ := c
    exact absurd (Memory.read_head.symm.trans (hread a)) (Memory.wf_cons h).1

/-- The rest of a canonical memory reads 0 at its first cell's address and like the memory elsewhere. -/
theorem Memory.read_tail (h : Memory.wf ((a, v) :: m)) (x : Nat) :
    m.read x = if x = a then 0 else Memory.read ((a, v) :: m) x := by
  split
  case isTrue hx => exact hx ▸ Memory.read_of_lt_all (Memory.wf_cons h).2.1
  case isFalse hx => rw [Memory.read_cons, if_neg (Ne.symm hx)]

end Sys2Proof.Machine
end

section
/-! The statement about the form of memory (20_memory.md). -/

namespace Sys2Proof.Machine

/-- Settles O49, by induction on the cells: the first cells are at one address, where they read alike, and the rests read
alike. -/
theorem canonicalMemoriesAreEqual : Obligations.CanonicalMemoriesAreEqual := by
  intro m
  induction m with
  | nil =>
    intro m' _ h' hread
    exact (Memory.eq_nil_of_read h' fun a => (hread a).symm).symm
  | cons c m ih =>
    obtain ⟨a, v⟩ := c
    intro m' h h' hread
    cases m' with
    | nil => exact Memory.eq_nil_of_read h hread
    | cons c' m' =>
      obtain ⟨b, w⟩ := c'
      obtain rfl : a = b := Nat.le_antisymm (Memory.head_le h' h (hread b).symm) (Memory.head_le h h' (hread a))
      obtain rfl : v = w := by simpa [Memory.read_head] using hread a
      rw [ih m' (Memory.wf_cons h).2.2 (Memory.wf_cons h').2.2 fun x => by
        rw [Memory.read_tail h, Memory.read_tail h', hread x]]

end Sys2Proof.Machine
end

section
/-! SUPPORT. The status of a state that has the invariant, the codes of faults, and the trace port's bytes (R24, R90,
R99). -/

namespace Sys2Proof.Machine

variable {s : State}

/-- The three statuses (R24). -/
theorem State.Inv.status_cases (h : s.Inv) :
    (s.running = true ∧ s.fault = none ∧ s.status = .running) ∨
    (s.running = false ∧ s.fault = none ∧ s.status = .halted) ∨
    (∃ r, s.running = false ∧ s.fault = some r ∧ s.status = .faulted) := by
  cases hf : s.fault with
  | some r =>
    have hr : s.running = false := h.status (by simp [hf])
    exact .inr (.inr ⟨r, hr, rfl, by simp [State.status, hr, hf]⟩)
  | none =>
    cases hr : s.running with
    | true => exact .inl ⟨rfl, rfl, by simp [State.status, hr]⟩
    | false => exact .inr (.inl ⟨rfl, rfl, State.status_halted hr hf⟩)

/-- Every fault has a number other than 0 (R90). -/
theorem FaultRecord.code_ne_zero (r : FaultRecord) : r.code ≠ 0 := by
  cases r <;> simp [FaultRecord.code]

theorem State.faultCode_none (h : s.fault = none) : s.faultCode = 0 := by simp [State.faultCode, h]

theorem State.faultCode_some {r : FaultRecord} (h : s.fault = some r) : s.faultCode = r.code := by
  simp [State.faultCode, h]

theorem State.faultCode_eq_zero : s.faultCode = 0 ↔ s.fault = none := by
  cases hf : s.fault with
  | none => exact iff_of_true (State.faultCode_none hf) rfl
  | some r => exact iff_of_false (State.faultCode_some hf ▸ r.code_ne_zero) (by simp)

theorem State.traceByte_eq (s : State) (k : Nat) :
    s.traceByte k = if s.pc.toNat + k ≤ 255 then some (s.mem.read (s.pc.toNat + k)) else none := by
  simp only [State.traceByte, Config.memSize, Nat.lt_succ_iff]

end Sys2Proof.Machine
end

section
/-! The statements about reset and the host's view (60_exceptions.md, 70_reset_and_hazards.md). -/

namespace Sys2Proof.Machine

/-- Settles O52, part by part. -/
theorem resetState : Obligations.ResetState :=
  ⟨resetRegisters, rfl, rfl, rfl, rfl, rfl, Memory.read_nil⟩

/-- Settles O55, status by status. -/
theorem statusFollowsRunningAndFault : Obligations.StatusFollowsRunningAndFault := by
  intro s hs
  obtain ⟨hr, hf, hstatus⟩ | ⟨hr, hf, hstatus⟩ | ⟨r, hr, hf, hstatus⟩ := hs.status_cases
  all_goals simp [State.exitStatus, hr, hf, hstatus]

/-- Settles O56, byte by byte. -/
theorem tracePortShowsThreeBytes : Obligations.TracePortShowsThreeBytes := by
  intro s
  exact ⟨_, _, _, rfl, s.traceByte_eq 0, s.traceByte_eq 1, s.traceByte_eq 2⟩

/-- Settles O60: a record's number is not 0, and a state that has the invariant is FAULTED exactly when it holds one. -/
theorem faultCodesAreNumbered : Obligations.FaultCodesAreNumbered := by
  refine ⟨fun _ _ => rfl, fun _ => State.faultCode_eq_zero, fun _ _ => State.faultCode_some, fun s hs => ?_⟩
  rw [ne_eq, State.faultCode_eq_zero]
  obtain ⟨-, hf, hstatus⟩ | ⟨-, hf, hstatus⟩ | ⟨r, -, hf, hstatus⟩ := hs.status_cases
  all_goals simp [hf, hstatus]

end Sys2Proof.Machine
end

section
/-! SUPPORT. The loader and the boot of a file that parses (R109, R112). -/

namespace Sys2Proof.Machine

/-- An image that does not fit memory does not load. -/
theorem State.loadImage_tooLong (s : State) {image : List Byte} (h : 256 < image.length) :
    s.loadImage image = .error .imageTooLong := if_pos h

/-- A file that parses boots as its image loads from reset. -/
theorem boot_of_parse {chars : List Char} {image : List Byte} (h : parseImage chars = .ok image) :
    boot (.text chars) = State.reset.loadImage image := by
  simp [boot, h]

/-- A file that does not parse does not boot. -/
theorem boot_of_parse_error {chars : List Char} {e : LoadError} (h : parseImage chars = .error e) :
    boot (.text chars) = .error e := by
  simp [boot, h]

end Sys2Proof.Machine
end

section
/-! The statement about booting (70_reset_and_hazards.md). -/

namespace Sys2Proof.Machine

/-- Settles O57: a file boots exactly when it parses and its image fits, and the loader then writes the image into an
empty memory. -/
theorem bootLoadsTheImage : Obligations.BootLoadsTheImage := by
  refine ⟨?loads, ?tooLong, fun _ _ => boot_of_parse_error, rfl, ?exit⟩
  case loads =>
    intro chars image hparse hlen
    refine ⟨_, (boot_of_parse hparse).trans (State.loadImage_eq_ok.mpr ⟨hlen, rfl⟩), rfl,
      Memory.wf_writeBytes Memory.wf_nil 0 image, fun k hk => Memory.read_writeBytes_image [] hlen hk, fun a ha => ?_⟩
    exact (Memory.read_writeBytes_past_image [] ha).trans (Memory.read_nil a)
  case tooLong =>
    intro chars image hparse hlen
    rw [boot_of_parse hparse, State.loadImage_tooLong _ hlen]
  case exit =>
    intro f e h
    rw [h]
    rfl

end Sys2Proof.Machine
end

section
/-! SUPPORT. What the assembler answers (R53, R54): instructions whose register fields are registers. -/

namespace Sys2Proof.Machine

/-- A register operand is the number of a register. -/
theorem parseRegister_le {w : List Char} {b : Byte} (h : parseRegister w = some b) : b.toNat ≤ 7 := by
  unfold parseRegister at h
  split at h
  · split at h
    · split at h
      · cases h
        rw [BitVec.toNat_ofNat]
        omega
      · cases h
    · cases h
  · cases h

/-- An instruction assembled from its kind and its written operands is well formed. -/
theorem assembleOperands_wellFormed {labels : Labels} {k : Kind} {ws : List (List Char)} {i : Instr}
    (h : assembleOperands labels k ws = some i) : i.wellFormed = true := by
  cases k with
  | hlt | ret =>
    simp only [assembleOperands] at h
    split at h
    · cases h
      rfl
    · cases h
  | prn | push | pop | call | jmp | jne | jeq =>
    simp only [assembleOperands] at h
    split at h
    · obtain ⟨a, ha, rfl⟩ := Option.map_eq_some_iff.mp h
      simp [Instr.wellFormed, Instr.regFields, validRegByte, parseRegister_le ha]
    · cases h
  | mul | add | cmp =>
    simp only [assembleOperands] at h
    split at h
    · obtain ⟨a, ha, h⟩ := Option.bind_eq_some_iff.mp h
      obtain ⟨b, hb, rfl⟩ := Option.map_eq_some_iff.mp h
      simp [Instr.wellFormed, Instr.regFields, validRegByte, parseRegister_le ha, parseRegister_le hb]
    · cases h
  | ldi | addi =>
    simp only [assembleOperands] at h
    split at h
    · obtain ⟨a, ha, h⟩ := Option.bind_eq_some_iff.mp h
      obtain ⟨imm, -, rfl⟩ := Option.map_eq_some_iff.mp h
      simp [Instr.wellFormed, Instr.regFields, validRegByte, parseRegister_le ha]
    · cases h

/-- The second pass answers well-formed instructions only. -/
theorem resolve_wellFormed {labels : Labels} {lines : List AsmLine} {is : List Instr}
    (h : resolve labels lines = some is) : ∀ i ∈ is, i.wellFormed = true := by
  induction lines generalizing is with
  | nil =>
    cases h
    simp
  | cons line lines ih =>
    obtain ⟨x, hx, h⟩ := Option.bind_eq_some_iff.mp h
    obtain ⟨xs, hxs, rfl⟩ := Option.map_eq_some_iff.mp h
    exact List.forall_mem_cons.mpr ⟨assembleOperands_wellFormed hx, ih hxs⟩

end Sys2Proof.Machine
end

section
/-! The statement about assembled texts (30_encoding.md). -/

namespace Sys2Proof.Machine

/-- Settles O59: the register operands of every line are registers, and the image starts with the encoding of the first
instruction, which decoding undoes. -/
theorem assembledInstructionsAreWellFormed : Obligations.AssembledInstructionsAreWellFormed := by
  intro text is h
  obtain ⟨⟨lines, labels⟩, -, hresolve⟩ := Option.bind_eq_some_iff.mp h
  refine ⟨resolve_wellFormed hresolve, fun m hm => ⟨_, by rw [assembleWith, h]; rfl, ?_⟩⟩
  rintro i rest rfl
  exact decodeUndoesEncode m hm i _

end Sys2Proof.Machine
end

section
/-! SUPPORT. The lines of an image file (R110): stripping white space, cutting a comment, reading base-2 numerals, and
cutting a text into lines. -/

namespace Sys2Proof.Machine

/-! ### White space and comments -/

variable {l w w' rem : List Char} {p : Char → Bool}

theorem dropWhile_eq_self_of_head? (h : ∀ x ∈ l.head?, p x = false) : l.dropWhile p = l := by
  cases l with
  | nil => rfl
  | cons x l => exact List.dropWhile_cons_of_neg (Bool.eq_false_iff.mp (h x rfl))

theorem head?_dropWhile {x : Char} (h : x ∈ (l.dropWhile p).head?) : p x = false := by
  have hnot := List.head?_dropWhile_not p l
  rwa [Option.mem_def.mp h] at hnot

theorem rdropWhile_append_of_pos (hw : ∀ x ∈ w, p x = true) : (l ++ w).rdropWhile p = l.rdropWhile p := by
  rw [List.rdropWhile, List.reverse_append, List.dropWhile_append_of_pos fun x hx => hw x (List.mem_reverse.mp hx)]
  rfl

theorem dropWhile_append_cons_of_neg {a : Char} (ha : p a = false) (l c : List Char) :
    (l ++ a :: c).dropWhile p = l.dropWhile p ++ a :: c := by
  rw [List.dropWhile_append, List.dropWhile_cons_of_neg (by simp [ha])]
  split
  case isTrue h => rw [List.isEmpty_iff.mp h, List.nil_append]
  case isFalse => rfl

/-- `trim` strips from the left and then from the right. -/
theorem trim_eq_rdropWhile (l : List Char) : trim l = (l.dropWhile Char.isWhitespace).rdropWhile Char.isWhitespace :=
  rfl

/-- A text whose ends are not white space has nothing to strip. -/
theorem trim_eq_self (hhead : ∀ x ∈ l.head?, x.isWhitespace = false)
    (hlast : ∀ x ∈ l.getLast?, x.isWhitespace = false) : trim l = l := by
  rw [trim, dropWhile_eq_self_of_head? hhead, dropWhile_eq_self_of_head? (by rwa [List.head?_reverse]),
    List.reverse_reverse]

/-- White space around a text is stripped. -/
theorem trim_append_append (hw : ∀ x ∈ w, x.isWhitespace = true) (hw' : ∀ x ∈ w', x.isWhitespace = true) :
    trim (w ++ l ++ w') = trim l := by
  rw [trim_eq_rdropWhile, trim_eq_rdropWhile, List.append_assoc, List.dropWhile_append_of_pos hw,
    List.dropWhile_append]
  split
  case isTrue h => rw [List.isEmpty_iff.mp h, List.dropWhile_eq_nil_iff.mpr hw']
  case isFalse => exact rdropWhile_append_of_pos hw'

/-- White space alone is stripped entirely. -/
theorem trim_eq_nil (hw : ∀ x ∈ w, x.isWhitespace = true) : trim w = [] := by
  rw [trim, List.dropWhile_eq_nil_iff.mpr hw]
  rfl

/-- Stripping twice strips nothing more. -/
theorem trim_trim (l : List Char) : trim (trim l) = trim l := by
  refine trim_eq_self (fun x hx => ?head) fun x hx => ?last
  case head =>
    obtain ⟨rest, hrest⟩ := (l.dropWhile Char.isWhitespace).rdropWhile_prefix (p := Char.isWhitespace)
    refine head?_dropWhile (l := l) ?_
    rw [← hrest, List.head?_append, ← trim_eq_rdropWhile, Option.mem_def.mp hx]
    rfl
  case last =>
    rw [trim, List.getLast?_reverse] at hx
    exact head?_dropWhile hx

/-- Stripping adds no character. -/
theorem mem_of_mem_trim {x : Char} (h : x ∈ trim l) : x ∈ l :=
  (l.dropWhile_sublist _).subset ((List.rdropWhile_prefix _ _).subset h)

theorem isWhitespace_hash : '#'.isWhitespace = false := by decide

theorem ne_hash_of_notMem (h : '#' ∉ l) : ∀ x ∈ l, (x != '#') = true :=
  fun _ hx => bne_iff_ne.mpr fun e => h (e ▸ hx)

/-- A text without a comment sign is kept whole. -/
theorem dropComment_eq_self (h : '#' ∉ l) : dropComment l = l :=
  List.takeWhile_eq_self_iff.mpr (ne_hash_of_notMem h)

/-- A text is cut at its first comment sign. -/
theorem dropComment_append (h : '#' ∉ l) (c : List Char) : dropComment (l ++ '#' :: c) = l := by
  rw [dropComment, List.takeWhile_append_of_pos (ne_hash_of_notMem h), List.takeWhile_cons_of_neg (by simp),
    List.append_nil]

/-- Stripping a line with a comment leaves what is before the comment, stripped on the left, and a comment. -/
theorem trim_append_comment (l c : List Char) :
    ∃ c', trim (l ++ '#' :: c) = l.dropWhile Char.isWhitespace ++ '#' :: c' := by
  refine ⟨(c.reverse.dropWhile Char.isWhitespace).reverse, ?_⟩
  rw [trim, dropWhile_append_cons_of_neg isWhitespace_hash, List.reverse_append, List.reverse_cons, List.append_assoc,
    List.singleton_append, dropWhile_append_cons_of_neg isWhitespace_hash]
  simp

/-- What a line without a comment is read from. -/
theorem remainder_eq_trim (h : '#' ∉ l) : trim (dropComment (trim l)) = trim l := by
  rw [dropComment_eq_self (mt mem_of_mem_trim h), trim_trim]

/-- What a line with a comment is read from. -/
theorem remainder_comment (h : '#' ∉ l) (c : List Char) : trim (dropComment (trim (l ++ '#' :: c))) = trim l := by
  obtain ⟨c', hc'⟩ := trim_append_comment l c
  have hleft : '#' ∉ l.dropWhile Char.isWhitespace := fun hmem => h ((l.dropWhile_sublist _).subset hmem)
  rw [hc', dropComment_append hleft, trim_eq_rdropWhile, List.dropWhile_idempotent]
  rfl

/-- A comment changes nothing of what a line loads. -/
theorem parseImageLine_comment (h : '#' ∉ l) (c : List Char) : parseImageLine (l ++ '#' :: c) = parseImageLine l := by
  rw [parseImageLine, parseImageLine, remainder_comment h, remainder_eq_trim h]

/-! ### Base-2 numerals -/

/-- The characters of base-2 digits. -/
def bitChars (bits : List Bool) : List Char := bits.map fun b => if b then '1' else '0'

theorem digitsValue_zero (acc : Nat) (cs : List Char) :
    digitsValue 2 acc ('0' :: cs) = digitsValue 2 (2 * acc) cs := rfl

theorem digitsValue_one (acc : Nat) (cs : List Char) :
    digitsValue 2 acc ('1' :: cs) = digitsValue 2 (2 * acc + 1) cs := rfl

/-- No other character is a base-2 digit. -/
theorem digitsValue_other {c : Char} (h0 : c ≠ '0') (h1 : c ≠ '1') (acc : Nat) (cs : List Char) :
    digitsValue 2 acc (c :: cs) = none := by
  have hn0 : c.toNat ≠ 48 := fun h => h0 (Char.toNat_inj.mp h)
  have hn1 : c.toNat ≠ 49 := fun h => h1 (Char.toNat_inj.mp h)
  rw [digitsValue, if_neg]
  split_ifs <;> omega

/-- Digits are worth what their bits are. -/
theorem digitsValue_bitChars (acc : Nat) (bits : List Bool) :
    digitsValue 2 acc (bitChars bits) = some (bits.foldl (fun n b => 2 * n + b.toNat) acc) := by
  induction bits generalizing acc with
  | nil => rfl
  | cons b bits ih =>
    cases b with
    | false => exact (digitsValue_zero ..).trans (ih (2 * acc))
    | true => exact (digitsValue_one ..).trans (ih (2 * acc + 1))

/-- A text that holds a character other than a digit is no numeral. -/
theorem digitsValue_eq_none (acc : Nat) (h : ∃ x ∈ l, x ≠ '0' ∧ x ≠ '1') : digitsValue 2 acc l = none := by
  induction l generalizing acc with
  | nil => simp at h
  | cons c cs ih =>
    by_cases h0 : c = '0'
    · subst h0
      exact (digitsValue_zero ..).trans (ih _ (by simpa using h))
    by_cases h1 : c = '1'
    · subst h1
      exact (digitsValue_one ..).trans (ih _ (by simpa using h))
    exact digitsValue_other h0 h1 acc cs

theorem numeral_eq_digitsValue (h : l ≠ []) : numeral 2 l = digitsValue 2 0 l := by
  cases l with
  | nil => exact absurd rfl h
  | cons c cs => rfl

/-! ### What a line loads -/

/-- A line of white space loads nothing. -/
theorem parseImageLine_blank (h : '#' ∉ l) (hl : trim l = []) : parseImageLine l = .ok none := by
  rw [parseImageLine, remainder_eq_trim h, hl]

/-- A line whose remainder is no base-2 numeral fails. -/
theorem parseImageLine_notBinary (h : '#' ∉ l) (hl : trim l ≠ []) (hn : numeral 2 (trim l) = none) :
    parseImageLine l = .error .notBinary := by
  rw [parseImageLine, remainder_eq_trim h]
  cases hr : trim l with
  | nil => exact absurd hr hl
  | cons c cs => simp only [← hr, hn]

/-- A line whose remainder is worth at most 255 loads its value. -/
theorem parseImageLine_value {n : Nat} (h : '#' ∉ l) (hl : trim l ≠ []) (hn : numeral 2 (trim l) = some n)
    (hle : n ≤ 255) : parseImageLine l = .ok (some (BitVec.ofNat 8 n)) := by
  rw [parseImageLine, remainder_eq_trim h]
  cases hr : trim l with
  | nil => exact absurd hr hl
  | cons c cs => simp only [← hr, hn, if_neg (Nat.not_lt.mpr hle)]

/-- A line whose remainder is worth more than 255 fails. -/
theorem parseImageLine_tooLarge {n : Nat} (h : '#' ∉ l) (hl : trim l ≠ []) (hn : numeral 2 (trim l) = some n)
    (hlt : 255 < n) : parseImageLine l = .error .valueTooLarge := by
  rw [parseImageLine, remainder_eq_trim h]
  cases hr : trim l with
  | nil => exact absurd hr hl
  | cons c cs => simp only [← hr, hn, if_pos hlt]

/-! ### Lines -/

/-- A text without a newline is one line. -/
theorem splitAt_eq_singleton (h : '\n' ∉ l) : splitAt '\n' l = [l] := by
  induction l with
  | nil => rfl
  | cons c cs ih =>
    obtain ⟨hc, hcs⟩ := not_or.mp (mt List.mem_cons.mpr h)
    simp [splitAt, Ne.symm hc, ih hcs]

/-- A text is cut at its first newline. -/
theorem splitAt_append (h : '\n' ∉ l) (rest : List Char) :
    splitAt '\n' (l ++ '\n' :: rest) = l :: splitAt '\n' rest := by
  induction l with
  | nil => rfl
  | cons c cs ih =>
    obtain ⟨hc, hcs⟩ := not_or.mp (mt List.mem_cons.mpr h)
    simp [splitAt, Ne.symm hc, ih hcs]

/-- The bytes of a file whose first line is read. -/
theorem parseImage_append (h : '\n' ∉ l) (rest : List Char) :
    parseImage (l ++ '\n' :: rest) = do
      let b ← parseImageLine l
      let bs ← parseImage rest
      return b.toList ++ bs := by
  rw [parseImage, splitAt_append h]
  rfl

theorem hash_notMem_blank (hw : ∀ x ∈ w, x.isWhitespace = true) : '#' ∉ w :=
  fun h => Bool.eq_false_iff.mp isWhitespace_hash (hw _ h)

/-- A padded text has no comment sign if the text within has none. -/
theorem hash_notMem_padded (hw : ∀ x ∈ w, x.isWhitespace = true) (hw' : ∀ x ∈ w', x.isWhitespace = true)
    (hl : '#' ∉ l) : '#' ∉ w ++ l ++ w' := by
  simp [hash_notMem_blank hw, hash_notMem_blank hw', hl]

/-- Every base-2 digit is neither white space nor the comment sign. -/
theorem of_mem_bitChars {bits : List Bool} {x : Char} (h : x ∈ bitChars bits) : x.isWhitespace = false ∧ x ≠ '#' := by
  obtain ⟨b, -, rfl⟩ := List.mem_map.mp h
  cases b <;> decide

/-- Stripping a padded numeral leaves its digits. -/
theorem trim_padded_bitChars (bits : List Bool) (hw : ∀ x ∈ w, x.isWhitespace = true)
    (hw' : ∀ x ∈ w', x.isWhitespace = true) : trim (w ++ bitChars bits ++ w') = bitChars bits :=
  (trim_append_append hw hw').trans (trim_eq_self (fun _ hx => (of_mem_bitChars (List.mem_of_mem_head? hx)).1)
    fun _ hx => (of_mem_bitChars (List.mem_of_getLast? hx)).1)

end Sys2Proof.Machine
end

section
/-! The statement about the image file's lines (70_reset_and_hazards.md). -/

namespace Sys2Proof.Machine

/-- Settles O58: stripping leaves the remainder of a padded line, with a comment or without; the remainder's characters
decide what it is worth; and a text is its first line and the rest. -/
theorem imageLinesGiveTheirBytes : Obligations.ImageLinesGiveTheirBytes := by
  refine ⟨?blank, ?digits, ?notBinary, ?joins, ?firstFails, ?restFails, ?oneLine⟩
  case blank =>
    intro w c hw
    have hline := parseImageLine_blank (hash_notMem_blank hw) (trim_eq_nil hw)
    exact ⟨hline, (parseImageLine_comment (hash_notMem_blank hw) c).trans hline⟩
  case digits =>
    intro w w' c bits hw hw' hbits digits value
    have hhash : '#' ∉ w ++ bitChars bits ++ w' := hash_notMem_padded hw hw' fun h => (of_mem_bitChars h).2 rfl
    have hne : bitChars bits ≠ [] := by simpa [bitChars] using hbits
    have hn : numeral 2 (bitChars bits) = some value :=
      (numeral_eq_digitsValue hne).trans (digitsValue_bitChars 0 bits)
    rw [← trim_padded_bitChars bits hw hw'] at hne hn
    have hcomment := parseImageLine_comment hhash c
    exact ⟨fun hle => ⟨parseImageLine_value hhash hne hn hle, hcomment.trans (parseImageLine_value hhash hne hn hle)⟩,
      fun hlt => ⟨parseImageLine_tooLarge hhash hne hn hlt, hcomment.trans (parseImageLine_tooLarge hhash hne hn hlt)⟩⟩
  case notBinary =>
    intro w w' c rem hw hw' hrem hhead hlast hother
    have hhash : '#' ∉ w ++ rem ++ w' := hash_notMem_padded hw hw' hrem
    have htrim : trim (w ++ rem ++ w') = rem := (trim_append_append hw hw').trans (trim_eq_self hhead hlast)
    have hne : rem ≠ [] := by
      rintro rfl
      simp at hother
    have hn : numeral 2 rem = none := (numeral_eq_digitsValue hne).trans (digitsValue_eq_none 0 hother)
    rw [← htrim] at hne hn
    have hline := parseImageLine_notBinary hhash hne hn
    exact ⟨hline, (parseImageLine_comment hhash c).trans hline⟩
  case joins =>
    intro l rest b bs hl hb hbs
    simp [parseImage_append hl, hb, hbs]
  case firstFails =>
    intro l rest e hl he
    simp [parseImage_append hl, he]
  case restFails =>
    intro l rest b e hl hb he
    simp [parseImage_append hl, hb, he]
  case oneLine =>
    intro l hl
    rw [parseImage, splitAt_eq_singleton hl]
    cases h : parseImageLine l with
    | ok b => simp [parseImageLines, h, Except.map]
    | error e => simp [parseImageLines, h, Except.map]

end Sys2Proof.Machine
end
